-- ==== Sys2Proof/Word.lean ====
section
/-! DEFINITION. The plain data of the block: bytes, pixels, the phase of a decode, and the decode registers as one record. -/

namespace Sys2Proof

/-- An unsigned 8-bit value (spec/00_scope.md R8). -/
abbrev Byte := BitVec 8

/-- A pixel value: an ordered quad of unsigned 8-bit channels with value semantics (spec/10_state.md R24). -/
structure Pixel where
  r : Byte
  g : Byte
  b : Byte
  a : Byte
  deriving DecidableEq, Repr, Inhabited

/-- `pixel(0, 0, 0, 0)`, what a cache slot holds before its first write of a decode (R26, R106). -/
def Pixel.zero : Pixel := ⟨0, 0, 0, 0⟩

/-- `pixel(0, 0, 0, 255)`, the running pixel a decode starts with (R25, R106). -/
def Pixel.start : Pixel := ⟨0, 0, 0, 255⟩

/-- The 64-slot pixel register file `CACHE` (spec/10_state.md R26). -/
abbrev Cache := Vector Pixel 64

/-- Every slot at the zero pixel (R106). -/
def Cache.zero : Cache := Vector.replicate 64 Pixel.zero

/-- `PHASE` (spec/10_state.md R22). -/
inductive Phase where
  | header
  | pixels
  deriving DecidableEq, Repr, Inhabited

/-- The registers of a decode that are not host-visible and that lose their value at error entry
(spec/60_exceptions.md R203) and at START (spec/10_state.md R39), at the widths of spec/00_scope.md R6. -/
structure DecodeRegs where
  px     : Pixel
  cache  : Cache
  run    : BitVec 14
  pos    : BitVec 32
  pixcnt : BitVec 64
  npix   : BitVec 64
  outpos : BitVec 66
  deriving DecidableEq, Repr, Inhabited

end Sys2Proof
end

