-- ==== Sys2Proof/Syntax.lean ====
section
/-! DEFINITION. The instruction set: the seven opcodes of spec/opcode_table.json, with the operands of spec/30_encoding.md R84. -/

namespace Sys2Proof

/-- One opcode of the stream (spec/30_encoding.md R71, R84). Deltas are mathematical integers (spec/00_scope.md R8);
which values an encoding admits is `Instr.WellFormed`. -/
inductive Instr where
  /-- INDEX (R130): `k` is the cache slot number. -/
  | index (k : Fin 64)
  /-- RUN-short (R131): `n` is the run value. -/
  | runShort (n : Nat)
  /-- RUN-long (R132): `n` is the run value, the 32 already added (R77). -/
  | runLong (n : Nat)
  /-- DIFF-small (R150): three deltas added to R, G, B. -/
  | diffSmall (dr dg db : Int)
  /-- DIFF-medium (R151): three deltas added to R, G, B. -/
  | diffMedium (dr dg db : Int)
  /-- DIFF-large (R152): four biased values that replace R, G, B, A. -/
  | diffLarge (vr vg vb va : Int)
  /-- LITERAL (R170): a value for each channel whose presence flag is set. -/
  | literal (r g b a : Option Byte)
  deriving DecidableEq, Repr

end Sys2Proof
end

