-- ==== Sys2Proof/WellFormed.lean ====
section
/-! DEFINITION. Which operand values the encodings of spec/30_encoding.md admit (the operand column of R84). -/

namespace Sys2Proof

/-- `d` is a field of values 0 to 2b - 1 minus its bias b (R78 to R80). -/
abbrev InBias (b : Int) (d : Int) : Prop := -b ≤ d ∧ d ≤ b - 1

/-- The operand ranges of R84. An INDEX slot is in range by its type; a LITERAL may hold any subset of any bytes. -/
def Instr.wellFormed : Instr → Bool
  | .index _ => true
  | .runShort n => decide (n ≤ 31)
  | .runLong n => decide (32 ≤ n ∧ n ≤ 8223)
  | .diffSmall dr dg db => decide (InBias 2 dr ∧ InBias 2 dg ∧ InBias 2 db)
  | .diffMedium dr dg db => decide (InBias 16 dr ∧ InBias 8 dg ∧ InBias 8 db)
  | .diffLarge vr vg vb va => decide (InBias 16 vr ∧ InBias 16 vg ∧ InBias 16 vb ∧ InBias 16 va)
  | .literal _ _ _ _ => true

/-- Some encoding of R84 holds this instruction. -/
abbrev Instr.WellFormed (i : Instr) : Prop := i.wellFormed = true

end Sys2Proof
end

