-- ==== Sys2Proof/Decode.lean ====
section
/-! DEFINITION. From bytes to opcodes and back: tag classification, lengths, the decoder, the encoder (the assembler of
spec/30_encoding.md R84, R85), and the header's bytes. -/

namespace Sys2Proof

/-- What a tag byte selects (spec/30_encoding.md R73). -/
inductive Tag where
  | index
  | runShort
  | runLong
  | diffSmall
  | diffMedium
  | diffLarge
  | literal
  deriving DecidableEq, Repr

/-- `decode_tag` of R73, test by test. -/
def decodeTag (b0 : Byte) : Tag :=
  if b0 &&& 0xC0#8 = 0x00#8 then .index
  else if b0 &&& 0xC0#8 = 0x80#8 then .diffSmall
  else if b0 &&& 0xE0#8 = 0x40#8 then .runShort
  else if b0 &&& 0xE0#8 = 0x60#8 then .runLong
  else if b0 &&& 0xE0#8 = 0xC0#8 then .diffMedium
  else if b0 &&& 0xF0#8 = 0xE0#8 then .diffLarge
  else .literal

/-- The presence flags of a LITERAL tag (R81): `fR = b0[3]`, `fG = b0[2]`, `fB = b0[1]`, `fA = b0[0]`. -/
def flagR (b0 : Byte) : Bool := b0.getLsbD 3
def flagG (b0 : Byte) : Bool := b0.getLsbD 2
def flagB (b0 : Byte) : Bool := b0.getLsbD 1
def flagA (b0 : Byte) : Bool := b0.getLsbD 0

/-- `popcount(b0[3:0])` (spec/00_scope.md R8). -/
def flagCount (b0 : Byte) : Nat :=
  (flagR b0).toNat + (flagG b0).toNat + (flagB b0).toNat + (flagA b0).toNat

/-- The length in bytes of the opcode that starts with `b0` (R72). -/
def opLength (b0 : Byte) : Nat :=
  match decodeTag b0 with
  | .index => 1
  | .runShort => 1
  | .runLong => 2
  | .diffSmall => 1
  | .diffMedium => 2
  | .diffLarge => 3
  | .literal => 1 + flagCount b0

/-- An unsigned field minus its bias, in the integers (spec/00_scope.md R8). -/
def unbias (bias : Nat) (field : Byte) : Int := (field.toNat : Int) - (bias : Int)

/-- R75. -/
def idxField (b0 : Byte) : Fin 64 := Fin.ofNat 64 (b0 &&& 0x3F#8).toNat

/-- R76. -/
def runShortField (b0 : Byte) : Nat := (b0 &&& 0x1F#8).toNat

/-- R77: the 13-bit value of `b0[4:0]` and `b1`, plus 32. -/
def runLongField (b0 b1 : Byte) : Nat := (b0 &&& 0x1F#8).toNat * 256 + b1.toNat + 32

/-- R78. -/
def diffSmallOf (b0 : Byte) : Instr :=
  .diffSmall (unbias 2 ((b0 >>> 4) &&& 0x3#8)) (unbias 2 ((b0 >>> 2) &&& 0x3#8)) (unbias 2 (b0 &&& 0x3#8))

/-- R79. -/
def diffMediumOf (b0 b1 : Byte) : Instr :=
  .diffMedium (unbias 16 (b0 &&& 0x1F#8)) (unbias 8 (b1 >>> 4)) (unbias 8 (b1 &&& 0x0F#8))

/-- R80. -/
def diffLargeOf (b0 b1 b2 : Byte) : Instr :=
  .diffLarge
    (unbias 16 (((b0 &&& 0x0F#8) <<< 1) ||| (b1 >>> 7)))
    (unbias 16 ((b1 >>> 2) &&& 0x1F#8))
    (unbias 16 (((b1 &&& 0x03#8) <<< 3) ||| (b2 >>> 5)))
    (unbias 16 (b2 &&& 0x1F#8))

/-- One operand of a LITERAL: a byte of the stream if its flag is set, none otherwise (R81). -/
def takeOperand (flag : Bool) (bs : List Byte) : Option (Option Byte × List Byte) :=
  match flag, bs with
  | false, bs => some (none, bs)
  | true, b :: rest => some (some b, rest)
  | true, [] => none

/-- The operands of a LITERAL in the order R, G, B, A (R81, R172). -/
def takeLiteral (b0 : Byte) (bs : List Byte) : Option (Instr × List Byte) :=
  match takeOperand (flagR b0) bs with
  | none => none
  | some (r, bs1) =>
    match takeOperand (flagG b0) bs1 with
    | none => none
    | some (g, bs2) =>
      match takeOperand (flagB b0) bs2 with
      | none => none
      | some (b, bs3) =>
        match takeOperand (flagA b0) bs3 with
        | none => none
        | some (a, bs4) => some (.literal r g b a, bs4)

/-- Why bytes hold no opcode. R82: truncation is the only case, so there is no illegal one. -/
inductive Reject where
  /-- there is no tag byte at all (spec/40_decode_control.md R109) -/
  | noTagByte
  /-- the tag's operand bytes are not all there (spec/40_decode_control.md R110) -/
  | truncated (t : Tag)
  deriving DecidableEq, Repr

/-- The opcode at the head of a list of bytes and the bytes after it (R71, R73, R75 to R81). -/
def decode : List Byte → Except Reject (Instr × List Byte)
  | [] => .error .noTagByte
  | b0 :: rest =>
    match decodeTag b0 with
    | .index => .ok (.index (idxField b0), rest)
    | .runShort => .ok (.runShort (runShortField b0), rest)
    | .diffSmall => .ok (diffSmallOf b0, rest)
    | .runLong =>
      match rest with
      | b1 :: rest1 => .ok (.runLong (runLongField b0 b1), rest1)
      | [] => .error (.truncated .runLong)
    | .diffMedium =>
      match rest with
      | b1 :: rest1 => .ok (diffMediumOf b0 b1, rest1)
      | [] => .error (.truncated .diffMedium)
    | .diffLarge =>
      match rest with
      | b1 :: b2 :: rest2 => .ok (diffLargeOf b0 b1 b2, rest2)
      | _ => .error (.truncated .diffLarge)
    | .literal =>
      match takeLiteral b0 rest with
      | some out => .ok out
      | none => .error (.truncated .literal)

/-- The unsigned field that encodes delta `d` under `bias`: `d + bias`. -/
def biased (bias : Nat) (d : Int) : Byte := BitVec.ofNat 8 (d + bias).toNat

/-- A presence flag at bit `k` of a LITERAL tag. -/
def flagBit (v : Option Byte) (k : Nat) : Byte := if v.isSome then 1#8 <<< k else 0#8

/-- The bytes of an opcode: the encoding column of R84. -/
def encode : Instr → List Byte
  | .index k => [0x00#8 ||| BitVec.ofNat 8 k.val]
  | .runShort n => [0x40#8 ||| BitVec.ofNat 8 n]
  | .runLong n => [0x60#8 ||| BitVec.ofNat 8 ((n - 32) / 256), BitVec.ofNat 8 (n - 32)]
  | .diffSmall dr dg db =>
    [0x80#8 ||| (biased 2 dr <<< 4) ||| (biased 2 dg <<< 2) ||| biased 2 db]
  | .diffMedium dr dg db =>
    [0xC0#8 ||| biased 16 dr, (biased 8 dg <<< 4) ||| biased 8 db]
  | .diffLarge vr vg vb va =>
    [0xE0#8 ||| (biased 16 vr >>> 1),
     (biased 16 vr <<< 7) ||| (biased 16 vg <<< 2) ||| (biased 16 vb >>> 3),
     (biased 16 vb <<< 5) ||| biased 16 va]
  | .literal r g b a =>
    (0xF0#8 ||| flagBit r 3 ||| flagBit g 2 ||| flagBit b 1 ||| flagBit a 0) ::
      (r.toList ++ g.toList ++ b.toList ++ a.toList)

/-- The length in bytes of an opcode of the syntax (R72): how far its meaning moves `POS`. -/
def Instr.length : Instr → Nat
  | .index _ => 1
  | .runShort _ => 1
  | .runLong _ => 2
  | .diffSmall _ _ _ => 1
  | .diffMedium _ _ _ => 2
  | .diffLarge _ _ _ _ => 3
  | .literal r g b a => 1 + r.isSome.toNat + g.isSome.toNat + b.isSome.toNat + a.isSome.toNat

/-- The pseudo-instruction `REPEAT k` of R85, for the k that one opcode covers. -/
def pseudoRepeat (k : Nat) : Option Instr :=
  if 1 ≤ k ∧ k ≤ 32 then some (.runShort (k - 1))
  else if 33 ≤ k ∧ k ≤ 8224 then some (.runLong (k - 1))
  else none

/-- The other pseudo-instructions of R85. -/
def pseudoRGBA (r g b a : Byte) : Instr := .literal (some r) (some g) (some b) (some a)
def pseudoRGB (r g b : Byte) : Instr := .literal (some r) (some g) (some b) none
def pseudoEmit : Instr := .runShort 0
def pseudoTouch : Instr := .literal none none none none

/-- The magic bytes `q`, `o`, `i`, `f` (spec/20_memory.md R53). -/
def magic : List Byte := [0x71#8, 0x6F#8, 0x69#8, 0x66#8]

/-- The big-endian bytes of a 32-bit value (spec/20_memory.md R54). -/
def bytesBE32 (v : BitVec 32) : List Byte :=
  [v.extractLsb' 24 8, v.extractLsb' 16 8, v.extractLsb' 8 8, v.extractLsb' 0 8]

/-- The big-endian 32-bit value of four bytes, the first the most significant (`be32`, spec/00_scope.md R9). -/
def be32 (b0 b1 b2 b3 : Byte) : BitVec 32 := b0 ++ b1 ++ b2 ++ b3

/-- `HEADER w, h, ch, cs` of R84: the 14 bytes of spec/20_memory.md R52. -/
def encodeHeader (w h : BitVec 32) (ch cs : Byte) : List Byte :=
  magic ++ bytesBE32 w ++ bytesBE32 h ++ [ch, cs]

/-- The most bytes an opcode has (R72). -/
def maxOpLength : Nat := 5

/-- The bytes of a table word: bit 0 of `w` is the least significant bit of the first byte; the bits above `nbits` are 0. -/
def wordBytes (nbits w : Nat) : List Byte :=
  (List.range maxOpLength).map fun k => BitVec.ofNat 8 ((w % 2 ^ nbits) >>> (8 * k))

/-- The instruction the decoder reads from a table word (log 13). -/
def decodeTableWord (nbits w : Nat) : Option Instr :=
  match decode (wordBytes nbits w) with
  | .ok (i, _) => some i
  | .error _ => none

end Sys2Proof
end

