-- ==== Sys2Proof/Config.lean ====
section
/-! DEFINITION. What an implementation fixes (the parameters of spec/00_scope.md R5) and the values the spec leaves open. -/

namespace Sys2Proof

/-- The implementation parameters of one instance (spec/00_scope.md R5): arguments of the model, carried as plain
data beside the state so that every claim quantifies over them (log 1). -/
structure Params where
  inCapacity  : Nat
  outCapacity : Nat
  deriving DecidableEq, Repr

/-- The constraint R5 puts on the parameters: `14 <= IN_CAPACITY <= 2^32 - 1`. -/
abbrev Params.Legal (p : Params) : Prop := 14 ≤ p.inCapacity ∧ p.inCapacity ≤ 2 ^ 32 - 1

/-- DESIGN CHOICE (log 1): the sizes `State.reset` uses. The spec leaves both open; these are the largest input memory
R5 allows and an output memory that holds the largest image a header can name. -/
def Config.params : Params := ⟨2 ^ 32 - 1, 4 * (2 ^ 32 - 1) ^ 2⟩

/-- The free values of the decode registers after they lose their value (spec/60_exceptions.md R203, spec/10_state.md
R39; log 4): the n-th loss leaves `Config.freeRegs n`, of which nothing can be proved. -/
opaque Config.freeRegs : Nat → DecodeRegs

/-- The free value of `PHASE` after the n-th loss: at error entry (spec/60_exceptions.md R203) and whenever a decode is
done (spec/10_state.md R22; log 4). -/
opaque Config.freePhase : Nat → Phase

end Sys2Proof
end

