-- ==== Sys2Proof/Machine/State.lean ====
section
/-! DEFINITION. The state of one decoder instance (spec/10_state.md R20), the host's requests and answers, the ways a step can stop, and reset. -/

namespace Sys2Proof.Machine

/-- `STATUS` (R21). -/
inductive Status where
  | idle
  | busy
  | done
  | error
  deriving DecidableEq, Repr

/-- `ERR` (R23; spec/60_exceptions.md R200). -/
inductive ErrKind where
  | none
  | invalidFormat
  | decodeError
  | outOfCapacity
  deriving DecidableEq, Repr

/-- One atomic host action (spec/40_decode_control.md R100): a register access (R34), an input write (R58), a raster
access (R181, R183), or power-on reset (R230). START is a write of register 2 with bit 0 set (R32). -/
inductive HostReq where
  | readReg (n : Nat)
  | writeReg (n : Nat) (v : BitVec 32)
  | inWrite (a : Nat) (v : Byte)
  | getPixel (x y : BitVec 32)
  | setPixel (x y : BitVec 32) (p : Pixel)
  | powerOnReset
  deriving DecidableEq, Repr

/-- Whose step comes next (log 6): the core's, or the host's with what it does. -/
inductive Turn where
  | core
  | host (r : HostReq)
  deriving DecidableEq, Repr

/-- What the block answers to a host action (R34, R181 to R183). -/
inductive Answer where
  /-- a register read -/
  | value (v : BitVec 32)
  /-- GET: `OK` and a pixel -/
  | pixel (p : Pixel)
  /-- SET: `OK` -/
  | ok
  /-- GET or SET outside the image (R182) -/
  | outOfRange
  deriving DecidableEq, Repr

/-- The faults a step can end in. -/
inductive Fault where
  /-- `InRead` of an IN byte below `IN_LEN` that no INWRITE has given a value (R39; log 3): the core's reads. Safe. -/
  | inNoValue (a : Nat)
  /-- `MemRead` of an OUT byte that nothing has written (R39; log 3): GET. Safe; no reachable state raises it. -/
  | outNoValue (a : Nat)
  /-- a core read of IN at or beyond `IN_CAPACITY`, an address that does not exist (R50; log 19). Safe; no reachable state raises it. -/
  | inAbsent (a : Nat)
  /-- a read or write of OUT at or beyond `OUT_CAPACITY`, an address that does not exist (R50; log 19). Safe; no reachable state raises it. -/
  | outAbsent (a : Nat)
  /-- a host read of register 4 to 7 in IDLE or ERROR, which "return no value (the model faults a program that relies on one)" (R35). Safe. -/
  | resultRegisterNoValue (n : Nat)
  deriving DecidableEq, Repr

/-- The refusals a step can end in: host actions the spec gives no step (spec/70_reset_and_hazards.md section 3). All safe. -/
inductive Refusal where
  /-- an opcode with no meaning yet: raised by `exec`'s arms only -/
  | notModelled (mnemonic : String)
  /-- START while BUSY (R237) -/
  | startWhileBusy
  /-- INWRITE while BUSY (R236) -/
  | inWriteWhileBusy
  /-- INWRITE at or beyond `IN_CAPACITY` (R58, R236) -/
  | inWriteBeyondCapacity (a : Nat)
  /-- an `IN_LEN` write while BUSY (R31, R236) -/
  | inLenWhileBusy
  /-- an `IN_LEN` write of a value above `IN_CAPACITY` (R31, R236) -/
  | inLenBeyondCapacity (v : BitVec 32)
  /-- GET or SET unless DONE (R180, R238) -/
  | rasterPortNotDone
  /-- a read of register 4 to 7 while BUSY (R35, R238) -/
  | resultRegisterWhileBusy (n : Nat)
  /-- an access to a register number above 7 (R34) -/
  | unknownRegister (n : Nat)
  /-- a step of an instance the system does not hold (spec/60_exceptions.md R214; log 17) -/
  | noSuchInstance (k : Nat)
  deriving DecidableEq, Repr

/-- The state of one decoder instance. Every field from `status` to `outMem` is a row of R20; the last four are the
model's own (`params` log 1, `freeCtr` log 4, `agenda` log 6, `answer` log 8). -/
structure State where
  status     : Status
  phase      : Phase
  err        : ErrKind
  px         : Pixel
  cache      : Cache
  run        : BitVec 14
  pos        : BitVec 32
  pixcnt     : BitVec 64
  npix       : BitVec 64
  outpos     : BitVec 66
  inLen      : BitVec 32
  width      : BitVec 32
  height     : BitVec 32
  channels   : Byte
  colorspace : Byte
  inMem      : List Host.Cell
  outMem     : List Host.Cell
  params     : Params
  freeCtr    : Nat
  agenda     : List Turn
  answer     : Option Answer
  deriving DecidableEq, Repr

/-- An instance of the given sizes right after power-on reset (spec/70_reset_and_hazards.md R230, spec/10_state.md
R39): IDLE, NONE, `IN_LEN = 0`, no byte of IN or OUT with a value. Every other register is at the value log 2 names,
which the spec does not give. -/
def State.resetWith (p : Params) : State where
  status := .idle
  phase := .header
  err := .none
  px := Pixel.zero
  cache := Cache.zero
  run := 0
  pos := 0
  pixcnt := 0
  npix := 0
  outpos := 0
  inLen := 0
  width := 0
  height := 0
  channels := 0
  colorspace := 0
  inMem := []
  outMem := []
  params := p
  freeCtr := 0
  agenda := []
  answer := none

/-- The machine right after reset, at the sizes of log 1, with an empty agenda. -/
def State.reset : State := State.resetWith Config.params

end Sys2Proof.Machine
end

