-- ==== Sys2Proof/Machine/Flags.lean ====
section
/-! DEFINITION. The status state. The block has no condition codes (spec/10_state.md R36): `STATUS` and `ERR` are all there is. -/

namespace Sys2Proof.Machine

/-- `STATUS.STATE` (spec/10_state.md R34). -/
def Status.code : Status → BitVec 2
  | .idle => 0
  | .busy => 1
  | .done => 2
  | .error => 3

/-- `ERR.CODE` (spec/10_state.md R34, spec/60_exceptions.md R200). -/
def ErrKind.code : ErrKind → BitVec 2
  | .none => 0
  | .invalidFormat => 1
  | .decodeError => 2
  | .outOfCapacity => 3

end Sys2Proof.Machine
end

