-- ==== Sys2Proof/Machine/Operands.lean ====
section
/-! DEFINITION. What opcodes and the port compute from their operands: channel arithmetic, the pixel hash, the stored bytes of a pixel, raster offsets, register fields. -/

namespace Sys2Proof.Machine

/-- `ch <- (ch + d) mod 256` for a delta in the integers (spec/42_diff.md R153). -/
def addDelta (ch : Byte) (d : Int) : Byte := BitVec.ofInt 8 ((ch.toNat : Int) + d)

/-- `ch <- v mod 256` for a value in the integers (spec/42_diff.md R152, R153). -/
def channelOf (v : Int) : Byte := BitVec.ofInt 8 v

/-- R, G, B plus a delta each; A as it was (spec/42_diff.md R150, R151). -/
def addRGB (p : Pixel) (dr dg db : Int) : Pixel :=
  ⟨addDelta p.r dr, addDelta p.g dg, addDelta p.b db, p.a⟩

/-- Each channel with a value takes it, the others stay (spec/43_literal.md R170). -/
def assignChannels (p : Pixel) (r g b a : Option Byte) : Pixel :=
  ⟨r.getD p.r, g.getD p.g, b.getD p.b, a.getD p.a⟩

/-- `hash(p) = p.R ^ p.G ^ p.B ^ p.A` (spec/00_scope.md R9). -/
def pixelHash (p : Pixel) : Byte := p.r ^^^ p.g ^^^ p.b ^^^ p.a

/-- The cache slot of a pixel, `hash(p) mod 64` (spec/00_scope.md R9). -/
def slotOf (p : Pixel) : Fin 64 := Fin.ofNat 64 (pixelHash p).toNat

/-- The bytes OUT holds for a pixel, in address order: A is stored for 4 channels only
(spec/40_decode_control.md R114, spec/44_raster_port.md R183). -/
def storedBytes (channels : Byte) (p : Pixel) : List Byte :=
  if channels = 4 then [p.r, p.g, p.b, p.a] else [p.r, p.g, p.b]

/-- The A a 3-channel GET reports (spec/44_raster_port.md R184). -/
def alphaOfThreeChannel : Byte := 255

/-- `zext_64(WIDTH) * zext_64(HEIGHT)` (spec/40_decode_control.md R105). -/
def pixelTotal (w h : BitVec 32) : BitVec 64 := w.zeroExtend 64 * h.zeroExtend 64

/-- `(zext_64(y) * WIDTH + x) * CHANNELS`, the OUT address of a pixel's first byte (spec/44_raster_port.md R181). -/
def rasterOffset (s : State) (x y : BitVec 32) : Nat :=
  (y.toNat * s.width.toNat + x.toNat) * s.channels.toNat

/-- `x < WIDTH and y < HEIGHT` (spec/44_raster_port.md R182). -/
def inBounds (s : State) (x y : BitVec 32) : Bool :=
  decide (x.toNat < s.width.toNat) && decide (y.toNat < s.height.toNat)

/-- The host registers of spec/10_state.md R34 by name. -/
inductive Reg where
  | status
  | err
  | ctrl
  | inLen
  | width
  | height
  | channels
  | colorspace
  deriving DecidableEq, Repr

/-- The register a number names (spec/10_state.md R34). -/
def regOfNumber : Nat → Option Reg
  | 0 => some .status
  | 1 => some .err
  | 2 => some .ctrl
  | 3 => some .inLen
  | 4 => some .width
  | 5 => some .height
  | 6 => some .channels
  | 7 => some .colorspace
  | _ => none

/-- The registers that hold a value for the host only while DONE (spec/10_state.md R33, R35). -/
def Reg.isResult : Reg → Bool
  | .width | .height | .channels | .colorspace => true
  | .status | .err | .ctrl | .inLen => false

/-- The 32 bits a register reads as; reserved bits are 0 and CTRL reads 0 (spec/10_state.md R32, R34). -/
def regValue (s : State) : Reg → BitVec 32
  | .status => s.status.code.zeroExtend 32
  | .err => s.err.code.zeroExtend 32
  | .ctrl => 0
  | .inLen => s.inLen
  | .width => s.width
  | .height => s.height
  | .channels => s.channels.zeroExtend 32
  | .colorspace => s.colorspace.zeroExtend 32

end Sys2Proof.Machine
end

