-- ==== Sys2Proof/Machine/Ops.lean ====
section
/-! DEFINITION. The shared operations: the two byte memories, guarded input reads, output writes, the cache write, error entry and the return from it (START), emission and the advance of the pixel counters. -/

namespace Sys2Proof.Machine

/-! ## A byte memory: cells with strictly rising addresses; an unlisted address has no value (log 3) -/

/-- The canonical form of a memory. An unlisted address has no value, so no entry can equal it. -/
abbrev Memory.wf (m : List Host.Cell) : Prop := m.Pairwise fun c d => c.1 < d.1

/-- The byte at an address, none where it has no value (spec/10_state.md R39). -/
def Memory.read : List Host.Cell → Nat → Option Byte
  | [], _ => none
  | (k, v) :: rest, a => if k = a then some v else Memory.read rest a

/-- Store one byte, keeping the canonical form. -/
def Memory.write : List Host.Cell → Nat → Byte → List Host.Cell
  | [], a, v => [(a, v)]
  | (k, w) :: rest, a, v =>
    if a < k then (a, v) :: (k, w) :: rest
    else if a = k then (a, v) :: rest
    else (k, w) :: Memory.write rest a v

/-- Store bytes at consecutive addresses, the first first. -/
def Memory.writeBytes : List Host.Cell → Nat → List Byte → List Host.Cell
  | m, _, [] => m
  | m, a, v :: vs => Memory.writeBytes (Memory.write m a v) (a + 1) vs

/-! ## Input reads (spec/00_scope.md R9, spec/20_memory.md R51) -/

/-- `InAvail(a, n)`: `a + n <= IN_LEN`. -/
def inAvail (s : State) (a n : Nat) : Bool := decide (a + n ≤ s.inLen.toNat)

/-- `InRead(a)`. Every use is guarded by `inAvail`. -/
def inRead (s : State) (a : Nat) : Except Fault Byte :=
  if a < s.params.inCapacity then
    match Memory.read s.inMem a with
    | some v => .ok v
    | none => .error (.inNoValue a)
  else .error (.inAbsent a)

/-- `n` input bytes from address `a` on, at increasing addresses (spec/20_memory.md R55). -/
def inReadBytes (s : State) (a : Nat) : Nat → Except Fault (List Byte)
  | 0 => .ok []
  | n + 1 => do
    let v ← inRead s a
    let vs ← inReadBytes s (a + 1) n
    .ok (v :: vs)

/-- `be32(a)` (spec/00_scope.md R9). -/
def inReadBE32 (s : State) (a : Nat) : Except Fault (BitVec 32) := do
  let b0 ← inRead s a
  let b1 ← inRead s (a + 1)
  let b2 ← inRead s (a + 2)
  let b3 ← inRead s (a + 3)
  .ok (be32 b0 b1 b2 b3)

/-! ## Output reads and writes (spec/00_scope.md R9, spec/20_memory.md R50) -/

/-- `MemRead(OUT, a, 1)`. -/
def outRead (s : State) (a : Nat) : Except Fault Byte :=
  if a < s.params.outCapacity then
    match Memory.read s.outMem a with
    | some v => .ok v
    | none => .error (.outNoValue a)
  else .error (.outAbsent a)

/-- `MemWrite(OUT, a, 1, v)` for each byte at consecutive addresses from `a`, all of them or, where one does not
exist, none (log 19). -/
def outWriteBytes (s : State) (a : Nat) (vs : List Byte) : Except Fault State :=
  if a + vs.length ≤ s.params.outCapacity then .ok { s with outMem := Memory.writeBytes s.outMem a vs }
  else .error (.outAbsent (max a s.params.outCapacity))

/-! ## Outcomes -/

/-- The outcome of an operation that can fault, as the end of a step. -/
def outcomeOf : Except Fault State → Host.Outcome State Fault Refusal
  | .ok s => .next s
  | .error f => .fault f

/-- Go on after a next state; stop where the first part stops. -/
def andThen (o : Host.Outcome State Fault Refusal) (f : State → Host.Outcome State Fault Refusal) :
    Host.Outcome State Fault Refusal :=
  match o with
  | .next s => f s
  | .fault r => .fault r
  | .refused r => .refused r

/-! ## Error entry and the return from it -/

/-- The decode registers lose their value (spec/60_exceptions.md R203, spec/10_state.md R39): each becomes a free
value, fresh at every loss of this instance. DESIGN CHOICE: losses of two instances with one counter value leave equal
values (log 4). -/
def loseDecode (s : State) : State :=
  { s with
    phase := Config.freePhase s.freeCtr
    px := (Config.freeRegs s.freeCtr).px
    cache := (Config.freeRegs s.freeCtr).cache
    run := (Config.freeRegs s.freeCtr).run
    pos := (Config.freeRegs s.freeCtr).pos
    pixcnt := (Config.freeRegs s.freeCtr).pixcnt
    npix := (Config.freeRegs s.freeCtr).npix
    outpos := (Config.freeRegs s.freeCtr).outpos
    freeCtr := s.freeCtr + 1 }

/-- Error entry, `raise E` (spec/60_exceptions.md R203): the code into ERR, STATUS to ERROR, the decode registers lost,
and no byte of OUT with a value (spec/20_memory.md R67; log 12). Nothing else is saved and control goes nowhere. -/
def raise (e : ErrKind) (s : State) : State :=
  { loseDecode s with err := e, status := .error, outMem := [] }

/-- `start()` (spec/40_decode_control.md R101), the only way out of ERROR (spec/60_exceptions.md R207). The decode
registers have no value until the header step (spec/10_state.md R39). -/
def startDecode (s : State) : State :=
  { loseDecode s with status := .busy, err := .none, phase := .header }

/-! ## What opcodes share -/

/-- The cache write of spec/40_decode_control.md R112: `CACHE[hash(PX) mod 64] <- PX`. -/
def cacheWrite (s : State) : State :=
  { s with cache := s.cache.set (slotOf s.px).val s.px (slotOf s.px).isLt }

/-- `POS <- POS + len`. -/
def advancePos (n : Nat) (s : State) : State :=
  { s with pos := s.pos + BitVec.ofNat 32 n }

/-- `emit(PX)` (spec/40_decode_control.md R114). -/
def emit (s : State) : Except Fault State :=
  outWriteBytes s s.outpos.toNat (storedBytes s.channels s.px)

/-- Completion (spec/40_decode_control.md R106, R116): where `c` holds the decode is DONE, and `PHASE`, which exists only
while BUSY (spec/10_state.md R22), becomes a free value (log 4). -/
def completeWhen (c : Prop) [Decidable c] (s : State) : State :=
  { s with
    status := if c then .done else s.status
    phase := if c then Config.freePhase s.freeCtr else s.phase
    freeCtr := if c then s.freeCtr + 1 else s.freeCtr }

/-- The counter advance and completion that end every pixel step (spec/40_decode_control.md R115, R116). -/
def advanceCounters (s : State) : State :=
  completeWhen (s.pixcnt + 1 = s.npix)
    { s with pixcnt := s.pixcnt + 1, outpos := s.outpos + s.channels.zeroExtend 66 }

end Sys2Proof.Machine
end

