-- ==== Sys2Proof/Machine/Diff.lean ====
section
/-! DEFINITION. The delta opcodes (spec/42_diff.md), each with the cache write of spec/40_decode_control.md R112. -/

namespace Sys2Proof.Machine

/-- DIFF-small (R150). -/
def execDiffSmall (dr dg db : Int) (s : State) : Host.Outcome State Fault Refusal :=
  .next (cacheWrite (advancePos 1 { s with px := addRGB s.px dr dg db }))

/-- DIFF-medium (R151). -/
def execDiffMedium (dr dg db : Int) (s : State) : Host.Outcome State Fault Refusal :=
  .next (cacheWrite (advancePos 2 { s with px := addRGB s.px dr dg db }))

/-- DIFF-large (R152): the channels are assigned, not added to (spec/90_conflicts.md C5). -/
def execDiffLarge (vr vg vb va : Int) (s : State) : Host.Outcome State Fault Refusal :=
  .next (cacheWrite (advancePos 3
    { s with px := ⟨channelOf vr, channelOf vg, channelOf vb, channelOf va⟩ }))

end Sys2Proof.Machine
end

