-- ==== Sys2Proof/Machine/IndexRun.lean ====
section
/-! DEFINITION. The cache-reference and run-length opcodes (spec/41_index_run.md). None of them writes the cache (spec/40_decode_control.md R113). -/

namespace Sys2Proof.Machine

/-- INDEX (R130). -/
def execIndex (k : Fin 64) (s : State) : Host.Outcome State Fault Refusal :=
  .next (advancePos 1 { s with px := s.cache[k] })

/-- RUN-short (R131). -/
def execRunShort (n : Nat) (s : State) : Host.Outcome State Fault Refusal :=
  .next (advancePos 1 { s with run := BitVec.ofNat 14 n })

/-- RUN-long (R132). -/
def execRunLong (n : Nat) (s : State) : Host.Outcome State Fault Refusal :=
  .next (advancePos 2 { s with run := BitVec.ofNat 14 n })

end Sys2Proof.Machine
end

