-- ==== Sys2Proof/Machine/Literal.lean ====
section
/-! DEFINITION. The literal opcode (spec/43_literal.md), with the cache write of spec/40_decode_control.md R112. -/

namespace Sys2Proof.Machine

/-- LITERAL (R170, R171): also with no flag set it writes the cache. -/
def execLiteral (r g b a : Option Byte) (s : State) : Host.Outcome State Fault Refusal :=
  .next (cacheWrite (advancePos (Instr.literal r g b a).length { s with px := assignChannels s.px r g b a }))

end Sys2Proof.Machine
end

