-- ==== Sys2Proof/Machine/Dispatch.lean ====
section
/-! DEFINITION. The dispatch of an opcode to its meaning (spec/40_decode_control.md R111). -/

namespace Sys2Proof.Machine

def exec (i : Instr) (s : State) : Host.Outcome State Fault Refusal :=
  match i with
  | .index k => Sys2Proof.Machine.execIndex k s
  | .runShort n => Sys2Proof.Machine.execRunShort n s
  | .runLong n => Sys2Proof.Machine.execRunLong n s
  | .diffSmall dr dg db => Sys2Proof.Machine.execDiffSmall dr dg db s
  | .diffMedium dr dg db => Sys2Proof.Machine.execDiffMedium dr dg db s
  | .diffLarge vr vg vb va => Sys2Proof.Machine.execDiffLarge vr vg vb va s
  | .literal r g b a => Sys2Proof.Machine.execLiteral r g b a s

end Sys2Proof.Machine
end

