-- ==== Sys2Proof/Machine/CoreStep.lean ====
section
/-! DEFINITION. The two core steps (spec/40_decode_control.md): the header step, and the pixel step with its fetch, run continuation, emission and completion. -/

namespace Sys2Proof.Machine

/-! ## The header step (R102 to R106) -/

/-- What R104 reads of the header. -/
structure Header where
  width      : BitVec 32
  height     : BitVec 32
  channels   : Byte
  colorspace : Byte
  deriving DecidableEq, Repr

/-- The four fields of R104, in its order. -/
def readHeader (s : State) : Except Fault Header := do
  let w ← inReadBE32 s 4
  let h ← inReadBE32 s 8
  let ch ← inRead s 12
  let cs ← inRead s 13
  .ok ⟨w, h, ch, cs⟩

/-- R104: the header registers take the fields. -/
def setHeader (h : Header) (s : State) : State :=
  { s with width := h.width, height := h.height, channels := h.channels, colorspace := h.colorspace }

/-- R106: the decode registers at their start values; an empty image is complete at once. -/
def initDecode (s : State) : State :=
  completeWhen (s.npix = 0)
    { s with
      cache := Cache.zero
      px := Pixel.start
      run := 0
      pos := 14
      pixcnt := 0
      outpos := 0
      phase := .pixels }

/-- The checks and writes of R104 to R106, once the fields are read. -/
def acceptHeader (h : Header) (s : State) : State :=
  if h.channels ≠ 3 ∧ h.channels ≠ 4 then raise .invalidFormat (setHeader h s)
  else if (pixelTotal h.width h.height).toNat * h.channels.toNat > s.params.outCapacity then
    raise .outOfCapacity { setHeader h s with npix := pixelTotal h.width h.height }
  else initDecode { setHeader h s with npix := pixelTotal h.width h.height }

/-- The header step; its checks in the order of spec/60_exceptions.md R206. -/
def headerStep (s : State) : Host.Outcome State Fault Refusal :=
  if inAvail s 0 14 then
    match inReadBytes s 0 4 with
    | .error f => .fault f
    | .ok m =>
      if m = magic then
        match readHeader s with
        | .error f => .fault f
        | .ok h => .next (acceptHeader h s)
      else .next (raise .invalidFormat s)
  else .next (raise .invalidFormat s)

/-! ## The pixel step (R107) -/

/-- The opcode at POS, or none where the stream is truncated (R109, R110): the tag byte, its length, and only then the
rest of its bytes. -/
def fetch (s : State) : Except Fault (Option Instr) :=
  if inAvail s s.pos.toNat 1 then do
    let b0 ← inRead s s.pos.toNat
    if inAvail s s.pos.toNat (opLength b0) then do
      let bytes ← inReadBytes s s.pos.toNat (opLength b0)
      match decode bytes with
      | .ok (i, _) => .ok (some i)
      | .error _ => .ok none
    else .ok none
  else .ok none

/-- The end of every pixel step: emission, counters, completion (R114 to R116). -/
def finishPixel (s : State) : Host.Outcome State Fault Refusal :=
  andThen (outcomeOf (emit s)) fun t => .next (advanceCounters t)

/-- The pixel step that reads an opcode (R109 to R111). -/
def opcodeStep (s : State) : Host.Outcome State Fault Refusal :=
  match fetch s with
  | .error f => .fault f
  | .ok none => .next (raise .decodeError s)
  | .ok (some i) => andThen (exec i s) finishPixel

/-- The pixel step: a run continuation (R108) or an opcode. -/
def pixelStep (s : State) : Host.Outcome State Fault Refusal :=
  if s.run = 0 then opcodeStep s else finishPixel { s with run := s.run - 1 }

/-- The core's turn (R100): a step exactly when BUSY; otherwise the core is idle and nothing changes (log 7). -/
def coreTurn (s : State) : Host.Outcome State Fault Refusal :=
  match s.status, s.phase with
  | .busy, .header => headerStep s
  | .busy, .pixels => pixelStep s
  | .idle, _ => .next s
  | .done, _ => .next s
  | .error, _ => .next s

end Sys2Proof.Machine
end

