-- ==== Sys2Proof/Machine/HostPort.lean ====
section
/-! DEFINITION. The host's actions: register access, START, the input write port, the raster port (spec/44_raster_port.md), power-on reset, and the boot sequence. -/

namespace Sys2Proof.Machine

/-- The host's action is done and answers `a`. -/
def answered (a : Option Answer) (s : State) : Host.Outcome State Fault Refusal :=
  .next { s with answer := a }

/-- A register read (spec/10_state.md R34, R35). -/
def hostReadReg (n : Nat) (s : State) : Host.Outcome State Fault Refusal :=
  match regOfNumber n with
  | none => .refused (.unknownRegister n)
  | some r =>
    if r.isResult then
      match s.status with
      | .done => answered (some (.value (regValue s r))) s
      | .busy => .refused (.resultRegisterWhileBusy n)
      | .idle => .fault (.resultRegisterNoValue n)
      | .error => .fault (.resultRegisterNoValue n)
    else answered (some (.value (regValue s r))) s

/-- A write of CTRL (spec/10_state.md R32, spec/40_decode_control.md R101, spec/70_reset_and_hazards.md R237). -/
def hostWriteCtrl (v : BitVec 32) (s : State) : Host.Outcome State Fault Refusal :=
  if v.getLsbD 0 then
    if s.status = .busy then .refused .startWhileBusy else answered none (startDecode s)
  else answered none s

/-- A write of IN_LEN (spec/10_state.md R31, spec/70_reset_and_hazards.md R236). -/
def hostWriteInLen (v : BitVec 32) (s : State) : Host.Outcome State Fault Refusal :=
  if s.status = .busy then .refused .inLenWhileBusy
  else if v.toNat ≤ s.params.inCapacity then answered none { s with inLen := v }
  else .refused (.inLenBeyondCapacity v)

/-- A register write (spec/10_state.md R34): no effect on a read-only register. -/
def hostWriteReg (n : Nat) (v : BitVec 32) (s : State) : Host.Outcome State Fault Refusal :=
  match regOfNumber n with
  | none => .refused (.unknownRegister n)
  | some .ctrl => hostWriteCtrl v s
  | some .inLen => hostWriteInLen v s
  | some .status => answered none s
  | some .err => answered none s
  | some .width => answered none s
  | some .height => answered none s
  | some .channels => answered none s
  | some .colorspace => answered none s

/-- `INWRITE(a, v)` (spec/20_memory.md R58, spec/70_reset_and_hazards.md R236). -/
def hostInWrite (a : Nat) (v : Byte) (s : State) : Host.Outcome State Fault Refusal :=
  if s.status = .busy then .refused .inWriteWhileBusy
  else if a < s.params.inCapacity then answered none { s with inMem := Memory.write s.inMem a v }
  else .refused (.inWriteBeyondCapacity a)

/-- The pixel GET reads at an OUT address (spec/44_raster_port.md R181, R184). -/
def readPixel (s : State) (o : Nat) : Except Fault Pixel := do
  let r ← outRead s o
  let g ← outRead s (o + 1)
  let b ← outRead s (o + 2)
  let a ← if s.channels = 4 then outRead s (o + 3) else .ok alphaOfThreeChannel
  .ok ⟨r, g, b, a⟩

/-- GET (spec/44_raster_port.md R180 to R182). -/
def hostGet (x y : BitVec 32) (s : State) : Host.Outcome State Fault Refusal :=
  if s.status = .done then
    if inBounds s x y then
      match readPixel s (rasterOffset s x y) with
      | .ok p => answered (some (.pixel p)) s
      | .error f => .fault f
    else answered (some .outOfRange) s
  else .refused .rasterPortNotDone

/-- SET (spec/44_raster_port.md R180, R182, R183, R185). -/
def hostSet (x y : BitVec 32) (p : Pixel) (s : State) : Host.Outcome State Fault Refusal :=
  if s.status = .done then
    if inBounds s x y then
      andThen (outcomeOf (outWriteBytes s (rasterOffset s x y) (storedBytes s.channels p)))
        (answered (some .ok))
    else answered (some .outOfRange) s
  else .refused .rasterPortNotDone

/-- Power-on reset at any time (spec/70_reset_and_hazards.md R230; log 11). The sizes, the turns to come and the
free-value counter are not the block's and stay. -/
def hostReset (s : State) : Host.Outcome State Fault Refusal :=
  .next { State.resetWith s.params with agenda := s.agenda, freeCtr := s.freeCtr }

/-- The host's turn (spec/40_decode_control.md R100). -/
def hostTurn (r : HostReq) (s : State) : Host.Outcome State Fault Refusal :=
  match r with
  | .readReg n => hostReadReg n s
  | .writeReg n v => hostWriteReg n v s
  | .inWrite a v => hostInWrite a v s
  | .getPixel x y => hostGet x y s
  | .setPixel x y p => hostSet x y p s
  | .powerOnReset => hostReset s

/-- Steps (2) of the boot sequence: INWRITE of each byte at addresses from `a` on. -/
def loadTurns : Nat → List Byte → List Turn
  | _, [] => []
  | a, v :: vs => .host (.inWrite a v) :: loadTurns (a + 1) vs

/-- The host's sequence of spec/70_reset_and_hazards.md R233, steps (2) to (4), for an encoded image. -/
def bootAgenda (image : List Byte) : List Turn :=
  loadTurns 0 image ++
    [.host (.writeReg 3 (BitVec.ofNat 32 image.length)), .host (.writeReg 2 1)]

end Sys2Proof.Machine
end

