-- ==== Sys2Proof/Machine/Step.lean ====
section
/-! DEFINITION. One step of an instance: the turn at the head of the agenda, or the core's; and the loader that places an instruction. -/

namespace Sys2Proof.Machine

/-- One atomic step (spec/40_decode_control.md R100; log 6). -/
def step (s : State) : Host.Outcome State Fault Refusal :=
  match s.agenda with
  | [] => coreTurn s
  | .core :: rest => coreTurn { s with agenda := rest }
  | .host r :: rest => hostTurn r { s with agenda := rest }

/-- The state in which the very next step fetches and runs the instruction of a table word (log 13): the word's bytes
at POS = 14, the decode of a 1x1 RGBA image in progress with no run pending, and sizes that hold both. Every field
the fetch and the emission do not need is as it was. -/
def State.withFetchWord (s : State) (nbits w : Nat) : State :=
  { s with
    status := .busy
    phase := .pixels
    err := .none
    run := 0
    pos := 14
    pixcnt := 0
    npix := 1
    outpos := 0
    inLen := 19
    width := 1
    height := 1
    channels := 4
    inMem := Memory.writeBytes s.inMem 14 (wordBytes nbits w)
    params := ⟨max s.params.inCapacity 19, max s.params.outCapacity 4⟩
    agenda := [] }

end Sys2Proof.Machine
end

