-- ==== Sys2Proof/Machine/System.lean ====
section
/-! DEFINITION. Several instances (spec/60_exceptions.md R214): one instance state or more, one of which takes a step. -/

namespace Sys2Proof.Machine

/-- `N_INSTANCES` decoder instances, at least one as spec/00_scope.md R5 asks: instance 0, and instances 1, 2, ... (log 17). -/
structure System where
  first  : State
  others : List State
  deriving DecidableEq, Repr

/-- `N_INSTANCES` (spec/00_scope.md R5). -/
def System.count (sys : System) : Nat := sys.others.length + 1

/-- The state of instance `k`, none if the system has no such instance. -/
def System.get (sys : System) : Nat → Option State
  | 0 => some sys.first
  | k + 1 => sys.others[k]?

/-- The system with instance `k` at state `t`. -/
def System.set (sys : System) (t : State) : Nat → System
  | 0 => { sys with first := t }
  | k + 1 => { sys with others := sys.others.set k t }

/-- The instances right after power-on reset, of the given sizes: one by default, as in spec/00_scope.md R5. -/
def System.reset (size : Params) (more : List Params := []) : System :=
  ⟨State.resetWith size, more.map State.resetWith⟩

/-- A step of instance `k`: it reads and writes no other instance's state (R214). -/
def System.step (k : Nat) (sys : System) : Host.Outcome System Fault Refusal :=
  match sys.get k with
  | none => .refused (.noSuchInstance k)
  | some s =>
    match Sys2Proof.Machine.step s with
    | .next t => .next (sys.set t k)
    | .fault f => .fault f
    | .refused r => .refused r

/-- An interleaving: the instances' steps in the order the list gives. -/
def System.run : List Nat → System → Host.Outcome System Fault Refusal
  | [], sys => .next sys
  | k :: ks, sys =>
    match System.step k sys with
    | .next sys' => System.run ks sys'
    | .fault f => .fault f
    | .refused r => .refused r

end Sys2Proof.Machine
end

