-- ==== Sys2Proof/Safety.lean ====
section
/-! DEFINITION. What every reachable state satisfies: the laws of spec/10_state.md (R22, R23, R27 to R31) and spec/40_decode_control.md (R118, R119) as one invariant. -/

namespace Sys2Proof.Machine

/-- It is turn `τ` in state `s`, and `u` is the state the turn acts on: the head of the agenda taken off, or the core
moving because the agenda is empty (log 6). -/
def TurnOf (s : State) (τ : Turn) (u : State) : Prop :=
  (s.agenda = [] ∧ τ = .core ∧ u = s) ∨ ∃ rest, s.agenda = τ :: rest ∧ u = { s with agenda := rest }

/-- R27: every slot holds the zero pixel or a pixel whose slot it is. -/
def CacheInv (cache : Cache) : Prop := ∀ k : Fin 64, cache[k] = Pixel.zero ∨ slotOf cache[k] = k

/-- Every OUT address below `n` has a value. -/
def Filled (m : List Host.Cell) (n : Nat) : Prop := ∀ a < n, ∃ v, Memory.read m a = some v

/-- Every address listed in a memory exists. -/
def Within (m : List Host.Cell) (capacity : Nat) : Prop := ∀ a v, Memory.read m a = some v → a < capacity

/-- The number of bytes of the raster, `WIDTH * HEIGHT * CHANNELS` (spec/20_memory.md R56). -/
def rasterSize (s : State) : Nat := s.width.toNat * s.height.toNat * s.channels.toNat

/-- An image that fits: a channel count of 3 or 4 (R104) and a raster within OUT (R105). -/
structure ImageInv (s : State) : Prop where
  channels : s.channels = 3 ∨ s.channels = 4
  fits : rasterSize s ≤ s.params.outCapacity

/-- What holds between two pixel steps of a decode. -/
structure LoopInv (s : State) : Prop where
  image : ImageInv s
  /-- R30: the pixel total -/
  total : s.npix.toNat = s.width.toNat * s.height.toNat
  /-- R107: a pixel is left -/
  left : s.pixcnt.toNat < s.npix.toNat
  /-- R30: `OUTPOS = PIXCNT * CHANNELS` -/
  outpos : s.outpos.toNat = s.pixcnt.toNat * s.channels.toNat
  /-- R29: `14 <= POS` -/
  posLow : 14 ≤ s.pos.toNat
  /-- R29, R119: `POS <= IN_LEN` -/
  posHigh : s.pos.toNat ≤ s.inLen.toNat
  /-- R28: the largest run value -/
  run : s.run.toNat ≤ 8223
  /-- R27 -/
  cache : CacheInv s.cache
  /-- R115, R118: every byte emitted so far is in OUT -/
  emitted : Filled s.outMem s.outpos.toNat

/-- What holds of a finished image (R118). -/
structure DoneInv (s : State) : Prop where
  image : ImageInv s
  complete : Filled s.outMem (rasterSize s)

/-- The invariant of an instance: every step keeps it. -/
structure Inv (s : State) : Prop where
  /-- R5 -/
  legal : s.params.Legal
  inWf : Memory.wf s.inMem
  outWf : Memory.wf s.outMem
  inWithin : Within s.inMem s.params.inCapacity
  outWithin : Within s.outMem s.params.outCapacity
  /-- R31 -/
  inLen : s.inLen.toNat ≤ s.params.inCapacity
  /-- R23: `ERR != NONE` exactly when `STATUS = ERROR` -/
  err : s.err ≠ .none ↔ s.status = .error
  loop : s.status = .busy → s.phase = .pixels → LoopInv s
  done : s.status = .done → DoneInv s

end Sys2Proof.Machine
end

