-- ==== Sys2Proof/Certificates/Slice0/Obligations.lean ====
section
/-! DEFINITION. The statements for the provers, and the few words they share. -/

open Sys2Proof Sys2Proof.Machine

/-! ## Words the statements share -/

/-- The 32-bit value of four bytes, most significant first, by arithmetic. -/
def Sys2Proof.Claims.beValue (b0 b1 b2 b3 : Byte) : Nat :=
  b0.toNat * 2 ^ 24 + b1.toNat * 2 ^ 16 + b2.toNat * 2 ^ 8 + b3.toNat

/-- Channel c of a pixel: 0 R, 1 G, 2 B, 3 A (spec/20_memory.md R56). -/
def Sys2Proof.Claims.chan (p : Pixel) (c : Nat) : Byte :=
  if c = 0 then p.r else if c = 1 then p.g else if c = 2 then p.b else p.a

/-- `hash(p) mod 64`, written out. -/
def Sys2Proof.Claims.slotNumber (p : Pixel) : Nat := (p.r ^^^ p.g ^^^ p.b ^^^ p.a).toNat % 64

/-- The slot of `p` holds `p`; every other slot is as before. -/
def Sys2Proof.Claims.SlotWritten (before after : Cache) (p : Pixel) : Prop :=
  ∀ k : Fin 64, after.get k = if k.val = Claims.slotNumber p then p else before.get k

/-- The first `n` channels of `p` stand at the addresses from `a` on; every other address reads as before. -/
def Sys2Proof.Claims.PixelStored (before after : List Host.Cell) (a n : Nat) (p : Pixel) : Prop :=
  ∀ x, Memory.read after x = if a ≤ x ∧ x < a + n then some (Claims.chan p (x - a)) else Memory.read before x

/-- The input memory holds these bytes from address `a` on, all within IN_CAPACITY. -/
def Sys2Proof.Claims.InputHolds (s : State) (a : Nat) (bytes : List Byte) : Prop :=
  a + bytes.length ≤ s.params.inCapacity ∧ ∀ j v, bytes[j]? = some v → Memory.read s.inMem (a + j) = some v

/-- The frame of an opcode's own effect: nothing but PX, RUN, POS and CACHE may differ, and no byte of IN or OUT does. -/
def Sys2Proof.Claims.OpcodeFrame (s t : State) : Prop :=
  t = { s with px := t.px, run := t.run, pos := t.pos, cache := t.cache } ∧
  ∀ a, Memory.read t.inMem a = Memory.read s.inMem a ∧ Memory.read t.outMem a = Memory.read s.outMem a

/-- The end of a pixel step (spec/40_decode_control.md R114 to R116): PX is stored at OUTPOS, the counters advance, the
last pixel completes the decode, and nothing else changes but PHASE, which has no value once the decode is DONE
(spec/10_state.md R22), and the model's own counter of free values with it (log 4). That the decode registers hold
values in DONE, where R26 and R28 give CACHE and RUN none, is log 5. -/
def Sys2Proof.Claims.PixelFinished (u t : State) : Prop :=
  t = { u with outMem := t.outMem, pixcnt := u.pixcnt + 1, outpos := u.outpos + u.channels.zeroExtend 66,
               status := if u.pixcnt + 1 = u.npix then .done else u.status,
               phase := t.phase, freeCtr := t.freeCtr } ∧
  (u.pixcnt + 1 ≠ u.npix → t.phase = u.phase ∧ t.freeCtr = u.freeCtr) ∧
  Claims.PixelStored u.outMem t.outMem u.outpos.toNat u.channels.toNat u.px

/-- Error entry (spec/60_exceptions.md R203): no byte of OUT has a value afterwards (spec/20_memory.md R67; log 12), and
nothing but STATUS, ERR, OUT and the lost decode registers (log 4) has changed; that the header registers stay is log 12. -/
def Sys2Proof.Claims.ErrorEntered (u : State) (e : ErrKind) (t : State) : Prop :=
  t.status = .error ∧ t.err = e ∧ (∀ a, Memory.read t.outMem a = none) ∧
  t = { u with outMem := t.outMem, status := t.status, err := t.err, phase := t.phase, px := t.px, cache := t.cache, run := t.run,
               pos := t.pos, pixcnt := t.pixcnt, npix := t.npix, outpos := t.outpos, freeCtr := t.freeCtr }

/-- A pixel can be emitted: 3 or 4 channels, and its bytes exist in OUT. -/
def Sys2Proof.Claims.Emittable (u : State) : Prop :=
  (u.channels = 3 ∨ u.channels = 4) ∧ u.outpos.toNat + u.channels.toNat ≤ u.params.outCapacity

/-- Opcodes after which the pixel step writes the cache (spec/40_decode_control.md R112). -/
def Sys2Proof.Claims.writesCache : Instr → Bool
  | .index _ => false
  | .runShort _ => false
  | .runLong _ => false
  | .diffSmall _ _ _ => true
  | .diffMedium _ _ _ => true
  | .diffLarge _ _ _ _ => true
  | .literal _ _ _ _ => true

/-- The effects of opcodes one after another. -/
def Sys2Proof.Claims.execAll : List Instr → State → Host.Outcome State Fault Refusal
  | [], s => .next s
  | i :: is, s => andThen (exec i s) (Claims.execAll is)

/-- No opcode of the list, run from `s`, writes slot `k`. -/
def Sys2Proof.Claims.SparesSlot (k : Nat) : List Instr → State → Prop
  | [], _ => True
  | i :: is, s => ∀ t, exec i s = .next t →
      (Claims.writesCache i = true → Claims.slotNumber t.px ≠ k) ∧ Claims.SparesSlot k is t

/-- The R, G, B deltas of the two additive opcodes; none for any other. -/
def Sys2Proof.Claims.deltas : Instr → Option (Int × Int × Int)
  | .index _ => none
  | .runShort _ => none
  | .runLong _ => none
  | .diffSmall dr dg db => some (dr, dg, db)
  | .diffMedium dr dg db => some (dr, dg, db)
  | .diffLarge _ _ _ _ => none
  | .literal _ _ _ _ => none

/-- The R, G, B sums of the deltas of a list of opcodes. -/
def Sys2Proof.Claims.deltaSum : List Instr → Int × Int × Int
  | [] => (0, 0, 0)
  | i :: is =>
    let d := (Claims.deltas i).getD (0, 0, 0)
    let e := Claims.deltaSum is
    (d.1 + e.1, d.2.1 + e.2.1, d.2.2 + e.2.2)

/-- The core is in the pixel loop: BUSY and PIXELS (spec/40_decode_control.md R107). -/
def Sys2Proof.Claims.InLoop (u : State) : Prop := u.status = .busy ∧ u.phase = .pixels

/-- The core is before its header step: BUSY and HEADER (spec/40_decode_control.md R100). -/
def Sys2Proof.Claims.InHeader (u : State) : Prop := u.status = .busy ∧ u.phase = .header

/-- Every input byte below IN_LEN has a value: the host has written the whole input (spec/70_reset_and_hazards.md R233). -/
def Sys2Proof.Claims.InputLoaded (s : State) : Prop := Filled s.inMem s.inLen.toNat

/-- `b` if the flag is set, no byte otherwise. -/
def Sys2Proof.Claims.given (flag : Bool) (b : Byte) : List Byte := if flag then [b] else []

/-- A turn that is not a power-on reset. -/
def Sys2Proof.Claims.NotReset (s : State) : Prop := ∀ rest, s.agenda ≠ .host .powerOnReset :: rest

/-- Equal in everything but the channel count, OUTPOS and OUT. -/
def Sys2Proof.Claims.SameButOut (s t : State) : Prop :=
  t = { s with channels := t.channels, outpos := t.outpos, outMem := t.outMem }

/-- Equal in everything but COLORSPACE and the input byte 13 it is read from. -/
def Sys2Proof.Claims.SameButColorspace (s t : State) : Prop :=
  t = { s with colorspace := t.colorspace, inMem := t.inMem } ∧
  (∀ a, a ≠ 13 → Memory.read t.inMem a = Memory.read s.inMem a) ∧
  ((Memory.read t.inMem 13).isSome = (Memory.read s.inMem 13).isSome)

/-- The running pixel an opcode makes of the one before and the cache, channel by channel (R130 to R132, R150 to R152, R170). -/
def Sys2Proof.Claims.pixelAfter (px : Pixel) (cache : Fin 64 → Pixel) : Instr → Pixel
  | .index k => cache k
  | .runShort _ => px
  | .runLong _ => px
  | .diffSmall dr dg db =>
    ⟨BitVec.ofInt 8 (px.r.toNat + dr), BitVec.ofInt 8 (px.g.toNat + dg), BitVec.ofInt 8 (px.b.toNat + db), px.a⟩
  | .diffMedium dr dg db =>
    ⟨BitVec.ofInt 8 (px.r.toNat + dr), BitVec.ofInt 8 (px.g.toNat + dg), BitVec.ofInt 8 (px.b.toNat + db), px.a⟩
  | .diffLarge vr vg vb va => ⟨BitVec.ofInt 8 vr, BitVec.ofInt 8 vg, BitVec.ofInt 8 vb, BitVec.ofInt 8 va⟩
  | .literal r g b a => ⟨r.getD px.r, g.getD px.g, b.getD px.b, a.getD px.a⟩

/-- The pixels still to repeat after an opcode that was read with none to repeat. -/
def Sys2Proof.Claims.runAfter : Instr → Nat
  | .index _ => 0
  | .runShort n => n
  | .runLong n => n
  | .diffSmall _ _ _ => 0
  | .diffMedium _ _ _ => 0
  | .diffLarge _ _ _ _ => 0
  | .literal _ _ _ _ => 0

/-- The next `n` pixels of a stream as a list, by a function on lists that knows no machine: `r` repeats of `px` first,
then opcode after opcode; nothing where the stream ends too soon. -/
def Sys2Proof.Claims.paint : Nat → Nat → Pixel → (Fin 64 → Pixel) → List Byte → Option (List Pixel)
  | 0, _, _, _, _ => some []
  | n + 1, r + 1, px, cache, bytes => (Claims.paint n r px cache bytes).map (px :: ·)
  | n + 1, 0, px, cache, bytes =>
    match decode bytes with
    | .error _ => none
    | .ok (i, rest) =>
      let p := Claims.pixelAfter px cache i
      let cache' := if Claims.writesCache i then fun k => if k.val = Claims.slotNumber p then p else cache k else cache
      (Claims.paint n (Claims.runAfter i) p cache' rest).map (p :: ·)

/-! ## Encoding (spec/30_encoding.md) -/

/-- R71, R84: no operand bit is lost between the encoder and the decoder. -/
def Obligations.DecodeOfEncodeIsTheInstruction : Prop :=
  ∀ (i : Instr) (rest : List Byte), i.WellFormed → decode (encode i ++ rest) = .ok (i, rest)

/-- R71, R84: what the decoder reads is well formed, and the encoder gives back the very bytes it was read from. -/
def Obligations.EncodeOfDecodeIsTheBytes : Prop :=
  ∀ (bytes : List Byte) (i : Instr) (rest : List Byte), decode bytes = .ok (i, rest) →
    i.WellFormed ∧ encode i ++ rest = bytes

/-- R74: the seven ranges of tag byte values. -/
def Obligations.TagRangesPartitionTheBytes : Prop :=
  ∀ b0 : Byte,
    (decodeTag b0 = .index ↔ b0.toNat ≤ 0x3F) ∧
    (decodeTag b0 = .runShort ↔ 0x40 ≤ b0.toNat ∧ b0.toNat ≤ 0x5F) ∧
    (decodeTag b0 = .runLong ↔ 0x60 ≤ b0.toNat ∧ b0.toNat ≤ 0x7F) ∧
    (decodeTag b0 = .diffSmall ↔ 0x80 ≤ b0.toNat ∧ b0.toNat ≤ 0xBF) ∧
    (decodeTag b0 = .diffMedium ↔ 0xC0 ≤ b0.toNat ∧ b0.toNat ≤ 0xDF) ∧
    (decodeTag b0 = .diffLarge ↔ 0xE0 ≤ b0.toNat ∧ b0.toNat ≤ 0xEF) ∧
    (decodeTag b0 = .literal ↔ 0xF0 ≤ b0.toNat)

/-- R82, R72, R83: bytes hold no opcode exactly when they are fewer than the length the tag byte gives. -/
def Obligations.DecodeRefusesOnlyTruncation : Prop :=
  ∀ bytes : List Byte,
    (∃ e, decode bytes = .error e) ↔ bytes = [] ∨ ∃ b0 more, bytes = b0 :: more ∧ bytes.length < opLength b0

/-- R72, R83: the length of an opcode by its tag byte's value, and the decoder reads just so many bytes. -/
def Obligations.TagByteGivesTheLength : Prop :=
  ∀ (b0 : Byte) (more : List Byte),
    opLength b0 =
      (if b0.toNat ≤ 0x5F then 1 else if b0.toNat ≤ 0x7F then 2 else if b0.toNat ≤ 0xBF then 1
      else if b0.toNat ≤ 0xDF then 2 else if b0.toNat ≤ 0xEF then 3
      else 1 + (b0.toNat / 8 % 2 + b0.toNat / 4 % 2 + b0.toNat / 2 % 2 + b0.toNat % 2)) ∧
    ∀ i rest, decode (b0 :: more) = .ok (i, rest) →
      i.length = opLength b0 ∧ (b0 :: more).length = opLength b0 + rest.length

/-- R75 to R79: the operands of the opcodes of one and two bytes, by arithmetic on the byte values. -/
def Obligations.OperandsOfShortOpcodes : Prop :=
  ∀ (b0 b1 : Byte) (rest : List Byte),
    (b0.toNat ≤ 0x3F → ∃ k : Fin 64, decode (b0 :: rest) = .ok (.index k, rest) ∧ k.val = b0.toNat) ∧
    (0x40 ≤ b0.toNat ∧ b0.toNat ≤ 0x5F → decode (b0 :: rest) = .ok (.runShort (b0.toNat - 0x40), rest)) ∧
    (0x60 ≤ b0.toNat ∧ b0.toNat ≤ 0x7F →
      decode (b0 :: b1 :: rest) = .ok (.runLong ((b0.toNat - 0x60) * 256 + b1.toNat + 32), rest)) ∧
    (0x80 ≤ b0.toNat ∧ b0.toNat ≤ 0xBF →
      decode (b0 :: rest) =
        .ok (.diffSmall ((b0.toNat / 16 % 4 : Nat) - 2) ((b0.toNat / 4 % 4 : Nat) - 2) ((b0.toNat % 4 : Nat) - 2), rest)) ∧
    (0xC0 ≤ b0.toNat ∧ b0.toNat ≤ 0xDF →
      decode (b0 :: b1 :: rest) =
        .ok (.diffMedium ((b0.toNat % 32 : Nat) - 16) ((b1.toNat / 16 : Nat) - 8) ((b1.toNat % 16 : Nat) - 8), rest))

/-- R80: the four fields of DIFF-large are the 20 bits after the tag, most significant first, 5 bits each. -/
def Obligations.OperandsOfDiffLarge : Prop :=
  ∀ (b0 b1 b2 : Byte) (rest : List Byte), 0xE0 ≤ b0.toNat ∧ b0.toNat ≤ 0xEF →
    let payload := (b0.toNat % 16) * 2 ^ 16 + b1.toNat * 2 ^ 8 + b2.toNat
    decode (b0 :: b1 :: b2 :: rest) =
      .ok (.diffLarge ((payload / 2 ^ 15 : Nat) - 16) ((payload / 2 ^ 10 % 32 : Nat) - 16)
        ((payload / 2 ^ 5 % 32 : Nat) - 16) ((payload % 32 : Nat) - 16), rest)

/-- R81, R172: one operand byte per set flag, in the order R, G, B, A, with no gap. -/
def Obligations.OperandsOfLiteral : Prop :=
  ∀ (b0 r g b a : Byte) (rest : List Byte), 0xF0 ≤ b0.toNat →
    decode (b0 :: (Claims.given (b0.getLsbD 3) r ++ Claims.given (b0.getLsbD 2) g ++ Claims.given (b0.getLsbD 1) b ++
        Claims.given (b0.getLsbD 0) a ++ rest)) =
      .ok (.literal (if b0.getLsbD 3 then some r else none) (if b0.getLsbD 2 then some g else none)
        (if b0.getLsbD 1 then some b else none) (if b0.getLsbD 0 then some a else none), rest)

/-- R71: a word of each format, its bits written out from the spec. -/
def Obligations.WrittenOutWordsDecode : Prop :=
  decode [0b00101000#8] = .ok (.index 40, []) ∧
  decode [0b01000010#8] = .ok (.runShort 2, []) ∧
  decode [0b01100000#8, 0b00000101#8] = .ok (.runLong 37, []) ∧
  decode [0b10111111#8] = .ok (.diffSmall 1 1 1, []) ∧
  decode [0b11010101#8, 0b10001010#8] = .ok (.diffMedium 5 0 2, []) ∧
  decode [0b11101001#8, 0b01001010#8, 0b01010011#8] = .ok (.diffLarge 2 2 2 3, []) ∧
  decode [0b11110110#8, 0x11#8, 0x22#8] = .ok (.literal none (some 0x11) (some 0x22) none, [])

/-! ## The opcodes (spec/41_index_run.md, 42_diff.md, 43_literal.md) -/

/-- R130. -/
def Obligations.IndexCopiesTheSlot : Prop :=
  ∀ (k : Fin 64) (s : State), ∃ t, exec (.index k) s = .next t ∧
    t.px = s.cache.get k ∧ t.pos = s.pos + 1 ∧ t.run = s.run ∧ t.cache = s.cache ∧ Claims.OpcodeFrame s t

/-- R131. -/
def Obligations.RunShortSetsTheCounter : Prop :=
  ∀ (n : Nat) (s : State), n ≤ 31 → ∃ t, exec (.runShort n) s = .next t ∧
    t.run.toNat = n ∧ t.pos = s.pos + 1 ∧ t.px = s.px ∧ t.cache = s.cache ∧ Claims.OpcodeFrame s t

/-- R132. -/
def Obligations.RunLongSetsTheCounter : Prop :=
  ∀ (n : Nat) (s : State), 32 ≤ n ∧ n ≤ 8223 → ∃ t, exec (.runLong n) s = .next t ∧
    t.run.toNat = n ∧ t.pos = s.pos + 2 ∧ t.px = s.px ∧ t.cache = s.cache ∧ Claims.OpcodeFrame s t

/-- R150, R153, R112. -/
def Obligations.DiffSmallAddsModulo256 : Prop :=
  ∀ (dr dg db : Int) (s : State), ∃ t, exec (.diffSmall dr dg db) s = .next t ∧
    (t.px.r.toNat : Int) = (s.px.r.toNat + dr) % 256 ∧
    (t.px.g.toNat : Int) = (s.px.g.toNat + dg) % 256 ∧
    (t.px.b.toNat : Int) = (s.px.b.toNat + db) % 256 ∧
    t.px.a = s.px.a ∧ t.pos = s.pos + 1 ∧ t.run = s.run ∧
    Claims.SlotWritten s.cache t.cache t.px ∧ Claims.OpcodeFrame s t

/-- R151, R153, R112. -/
def Obligations.DiffMediumAddsModulo256 : Prop :=
  ∀ (dr dg db : Int) (s : State), ∃ t, exec (.diffMedium dr dg db) s = .next t ∧
    (t.px.r.toNat : Int) = (s.px.r.toNat + dr) % 256 ∧
    (t.px.g.toNat : Int) = (s.px.g.toNat + dg) % 256 ∧
    (t.px.b.toNat : Int) = (s.px.b.toNat + db) % 256 ∧
    t.px.a = s.px.a ∧ t.pos = s.pos + 2 ∧ t.run = s.run ∧
    Claims.SlotWritten s.cache t.cache t.px ∧ Claims.OpcodeFrame s t

/-- R152, R153, R112: the four channels are assigned. -/
def Obligations.DiffLargeReplacesEveryChannel : Prop :=
  ∀ (vr vg vb va : Int) (s : State), ∃ t, exec (.diffLarge vr vg vb va) s = .next t ∧
    (t.px.r.toNat : Int) = vr % 256 ∧ (t.px.g.toNat : Int) = vg % 256 ∧
    (t.px.b.toNat : Int) = vb % 256 ∧ (t.px.a.toNat : Int) = va % 256 ∧
    t.pos = s.pos + 3 ∧ t.run = s.run ∧ Claims.SlotWritten s.cache t.cache t.px ∧ Claims.OpcodeFrame s t

/-- R170, R171, R112: the flagged channels are assigned, the others keep their value; the cache is written in any case. -/
def Obligations.LiteralAssignsTheFlaggedChannels : Prop :=
  ∀ (r g b a : Option Byte) (s : State), ∃ t, exec (.literal r g b a) s = .next t ∧
    (∀ v, r = some v → t.px.r = v) ∧ (r = none → t.px.r = s.px.r) ∧
    (∀ v, g = some v → t.px.g = v) ∧ (g = none → t.px.g = s.px.g) ∧
    (∀ v, b = some v → t.px.b = v) ∧ (b = none → t.px.b = s.px.b) ∧
    (∀ v, a = some v → t.px.a = v) ∧ (a = none → t.px.a = s.px.a) ∧
    t.pos = s.pos + BitVec.ofNat 32 (1 + (r.toList ++ g.toList ++ b.toList ++ a.toList).length) ∧ t.run = s.run ∧
    Claims.SlotWritten s.cache t.cache t.px ∧ Claims.OpcodeFrame s t

/-- R112, R113, R25, R28: of every opcode, what it leaves as it was. -/
def Obligations.OpcodesKeepWhatTheyDoNotWrite : Prop :=
  ∀ (i : Instr) (s t : State), exec i s = .next t →
    Claims.OpcodeFrame s t ∧
    (Claims.writesCache i = false → t.cache = s.cache) ∧
    (Claims.writesCache i = true → ∀ k : Fin 64, k.val ≠ Claims.slotNumber t.px → t.cache.get k = s.cache.get k) ∧
    ((∀ n, i ≠ .runShort n) → (∀ n, i ≠ .runLong n) → t.run = s.run) ∧
    ((∃ n, i = .runShort n ∨ i = .runLong n) → t.px = s.px)

/-- R134: an INDEX of a slot just written gives the written pixel again, also later, as long as no opcode in between
writes that slot. -/
def Obligations.IndexAfterACacheWriteGivesThePixel : Prop :=
  ∀ (i : Instr) (between : List Instr) (s t u : State), Claims.writesCache i = true → exec i s = .next t →
    Claims.SparesSlot (Claims.slotNumber t.px) between t → Claims.execAll between t = .next u →
    ∃ v, exec (.index (Fin.ofNat 64 (Claims.slotNumber t.px))) u = .next v ∧ v.px = t.px

/-- R154: 0xAA and 0xD0 0x88 leave PX as it is and still write it into its slot. -/
def Obligations.ZeroDeltasKeepThePixel : Prop :=
  ∀ s : State,
    (∃ i t, decode [0xAA#8] = .ok (i, []) ∧ exec i s = .next t ∧ t.px = s.px ∧
      Claims.SlotWritten s.cache t.cache s.px) ∧
    (∃ i t, decode [0xD0#8, 0x88#8] = .ok (i, []) ∧ exec i s = .next t ∧ t.px = s.px ∧
      Claims.SlotWritten s.cache t.cache s.px)

/-- R155: a sequence of DIFF-small and DIFF-medium adds the sums of its deltas modulo 256 and leaves A alone,
in whatever order. -/
def Obligations.DeltasCompose : Prop :=
  ∀ (is : List Instr) (s : State), (∀ i ∈ is, (Claims.deltas i).isSome = true) →
    ∃ t, Claims.execAll is s = .next t ∧
      (t.px.r.toNat : Int) = (s.px.r.toNat + (Claims.deltaSum is).1) % 256 ∧
      (t.px.g.toNat : Int) = (s.px.g.toNat + (Claims.deltaSum is).2.1) % 256 ∧
      (t.px.b.toNat : Int) = (s.px.b.toNat + (Claims.deltaSum is).2.2) % 256 ∧
      t.px.a = s.px.a ∧
      ∀ js : List Instr, js.Perm is → ∃ u, Claims.execAll js s = .next u ∧ u.px = t.px

/-! ## The pixel step (spec/40_decode_control.md) -/

/-- R107: where the bytes at POS decode to `i`, all below IN_LEN, the core's turn is the effect of `i`, then the
emission, the counters and the completion, as `Claims.PixelFinished` says them (R22, log 4; the registers in DONE, log 5). -/
def Obligations.StepRunsTheDecodedOpcode : Prop :=
  ∀ (s u : State) (bytes : List Byte) (i : Instr), TurnOf s .core u → Claims.InLoop u → u.run = 0 →
    decode bytes = .ok (i, []) → Claims.InputHolds u u.pos.toNat bytes →
    u.pos.toNat + bytes.length ≤ u.inLen.toNat → Claims.Emittable u →
    ∃ v t, exec i u = .next v ∧ step s = .next t ∧ Claims.PixelFinished v t

/-- R108: a run continuation takes one off RUN, reads nothing and emits PX; it raises no error, wherever POS
stands. PHASE once DONE is R22 and log 4; the registers in DONE are log 5. -/
def Obligations.RunContinuationRepeatsThePixel : Prop :=
  ∀ s u : State, TurnOf s .core u → Claims.InLoop u → u.run ≠ 0 → Claims.Emittable u →
    ∃ t, step s = .next t ∧ Claims.PixelFinished { u with run := u.run - 1 } t

/-- R109: no tag byte at POS. -/
def Obligations.MissingTagByteIsADecodeError : Prop :=
  ∀ s u : State, TurnOf s .core u → Claims.InLoop u → u.run = 0 → u.inLen.toNat ≤ u.pos.toNat →
    ∃ t, step s = .next t ∧ Claims.ErrorEntered u .decodeError t

/-- R110: a tag byte whose opcode extends past IN_LEN. -/
def Obligations.TruncatedOpcodeIsADecodeError : Prop :=
  ∀ (s u : State) (b0 : Byte), TurnOf s .core u → Claims.InLoop u → u.run = 0 →
    Claims.InputHolds u u.pos.toNat [b0] → u.pos.toNat < u.inLen.toNat →
    u.inLen.toNat < u.pos.toNat + opLength b0 →
    ∃ t, step s = .next t ∧ Claims.ErrorEntered u .decodeError t

/-- R114, R115, R116, R108, R22: what every pixel step does that raises no error, whether it reads an opcode or continues a
run. That POS, PX and the cache of a continuation stay also in the step that reaches DONE is log 5. -/
def Obligations.EveryPixelStepEmitsOnePixel : Prop :=
  ∀ s u t : State, TurnOf s .core u → Claims.InLoop u → (u.channels = 3 ∨ u.channels = 4) →
    step s = .next t → t.status ≠ .error →
    t.pixcnt = u.pixcnt + 1 ∧ t.outpos = u.outpos + u.channels.zeroExtend 66 ∧
    Claims.PixelStored u.outMem t.outMem u.outpos.toNat u.channels.toNat t.px ∧
    (t.status = .done ↔ u.pixcnt + 1 = u.npix) ∧
    (∀ a, Memory.read t.inMem a = Memory.read u.inMem a) ∧
    t.inLen = u.inLen ∧ t.width = u.width ∧ t.height = u.height ∧ t.channels = u.channels ∧
    t.colorspace = u.colorspace ∧ t.npix = u.npix ∧ t.err = u.err ∧ (t.status ≠ .done → t.phase = u.phase) ∧
    (u.run ≠ 0 → t.run = u.run - 1 ∧ t.pos = u.pos ∧ t.px = u.px ∧ t.cache = u.cache)

/-- R100, R116, R213: when not BUSY the core has no step: its turn changes nothing. -/
def Obligations.CoreIsIdleUnlessBusy : Prop :=
  ∀ s u : State, TurnOf s .core u → u.status ≠ .busy → step s = .next u

/-- R133: a run opcode with value n at logical pixel i makes the pixels i to i + n (those below NPIX) equal to the PX in
force, and the next opcode is read at pixel i + n + 1. Stated as: after the opcode's own step and any k ≤ n
continuations, k + 1 pixels have been emitted, RUN is n - k, POS is past the opcode and PX and the cache are as they were
(R108, R113, R131, R132). Where these pixels fill the image the decode is DONE, and that RUN, POS, PX and the cache still
hold these values there, where R26 and R28 give none, is the model's choice (log 5). -/
def Obligations.RunOpcodeEmitsItsRun : Prop :=
  ∀ (s : State) (bytes : List Byte) (i : Instr) (n k : Nat), Inv s → s.agenda = [] → Claims.InLoop s → s.run = 0 →
    (i = .runShort n ∨ i = .runLong n) → decode bytes = .ok (i, []) →
    Claims.InputHolds s s.pos.toNat bytes → s.pos.toNat + bytes.length ≤ s.inLen.toNat →
    k ≤ n → s.pixcnt.toNat + k + 1 ≤ s.npix.toNat →
    ∃ t, Host.Core.run Sys2Proof.core (k + 1) s = .next t ∧
      t.px = s.px ∧ t.cache = s.cache ∧ t.run.toNat = n - k ∧ t.pos.toNat = s.pos.toNat + bytes.length ∧
      t.pixcnt.toNat = s.pixcnt.toNat + k + 1 ∧
      (t.status = .done ↔ s.pixcnt.toNat + k + 1 = s.npix.toNat) ∧
      ∀ j c, j ≤ k → c < s.channels.toNat →
        Memory.read t.outMem (s.outpos.toNat + j * s.channels.toNat + c) = some (Claims.chan s.px c)

/-- R120: with 3 channels the pixel step does to every state element but OUT and OUTPOS what it does with 4. That a
register without a value takes the same free value in both is log 4; that the others hold values in DONE is log 5. -/
def Obligations.ThreeChannelStepAgreesWithFour : Prop :=
  ∀ s4 s3 t4 : State, Claims.SameButOut s4 s3 → s4.channels = 4 → s3.channels = 3 → s4.agenda = [] →
    Claims.InLoop s4 → Claims.Emittable s3 → step s4 = .next t4 →
    ∃ t3, step s3 = .next t3 ∧ Claims.SameButOut t4 t3 ∧ t4.channels = 4 ∧ t3.channels = 3 ∧
      (t4.status ≠ .error → t4.outpos = s4.outpos + 4 ∧ t3.outpos = s3.outpos + 3)

/-- R121: COLORSPACE and the input byte it comes from decide nothing but COLORSPACE: the core's turns and the raster
port's answers are the same. That a register without a value takes the same free value in both is log 4; that the others
hold values in DONE is log 5. -/
def Obligations.ColorspaceIsNotInterpreted : Prop :=
  ∀ (s s' u t : State) (τ : Turn), Inv s → Claims.SameButColorspace s s' → TurnOf s τ u →
    (τ = .core ∨ (∃ x y, τ = .host (.getPixel x y)) ∨ ∃ x y p, τ = .host (.setPixel x y p)) →
    step s = .next t → ∃ t', step s' = .next t' ∧ Claims.SameButColorspace t t'

/-! ## START and the header step -/

/-- R101, R32: the START command, whatever the ignored bits 31:1 hold. -/
def Obligations.StartBeginsADecode : Prop :=
  ∀ (s u : State) (v : BitVec 32), TurnOf s (.host (.writeReg 2 v)) u → v.toNat % 2 = 1 → u.status ≠ .busy →
    ∃ t, step s = .next t ∧ t.status = .busy ∧ t.err = .none ∧ t.phase = .header ∧
      t = { u with status := t.status, err := t.err, phase := t.phase, px := t.px, cache := t.cache, run := t.run,
                   pos := t.pos, pixcnt := t.pixcnt, npix := t.npix, outpos := t.outpos, freeCtr := t.freeCtr,
                   answer := none }

/-- R102, R206: an input shorter than 14 bytes, whatever its bytes are. -/
def Obligations.ShortInputIsInvalidFormat : Prop :=
  ∀ s u : State, TurnOf s .core u → Claims.InHeader u → u.inLen.toNat < 14 →
    ∃ t, step s = .next t ∧ Claims.ErrorEntered u .invalidFormat t

/-- R103, R206: a bad magic, whatever the other bytes are. -/
def Obligations.BadMagicIsInvalidFormat : Prop :=
  ∀ (s u : State) (m0 m1 m2 m3 : Byte), TurnOf s .core u → Claims.InHeader u → 14 ≤ u.inLen.toNat →
    Claims.InputHolds u 0 [m0, m1, m2, m3] → ¬(m0 = 0x71 ∧ m1 = 0x6F ∧ m2 = 0x69 ∧ m3 = 0x66) →
    ∃ t, step s = .next t ∧ Claims.ErrorEntered u .invalidFormat t

/-- R104, R206: a channel count other than 3 or 4, also where the image would not fit. That the header registers keep the
fields of R104 in ERROR, where R203 gives them no value to the host, is the model's choice (log 12). -/
def Obligations.BadChannelCountIsInvalidFormat : Prop :=
  ∀ (s u : State) (w3 w2 w1 w0 h3 h2 h1 h0 ch cs : Byte), TurnOf s .core u → Claims.InHeader u →
    14 ≤ u.inLen.toNat →
    Claims.InputHolds u 0 [0x71, 0x6F, 0x69, 0x66, w3, w2, w1, w0, h3, h2, h1, h0, ch, cs] →
    ch.toNat ≠ 3 → ch.toNat ≠ 4 →
    ∃ t, step s = .next t ∧
      Claims.ErrorEntered
        { u with width := t.width, height := t.height, channels := ch, colorspace := cs } .invalidFormat t ∧
      t.width.toNat = Claims.beValue w3 w2 w1 w0 ∧ t.height.toNat = Claims.beValue h3 h2 h1 h0

/-- R105, R104, R204: an image larger than OUT fails before any OUT byte is written. That the header registers keep the
fields of R104 in ERROR, where R203 gives them no value to the host, is the model's choice (log 12). -/
def Obligations.ImageLargerThanOutIsOutOfCapacity : Prop :=
  ∀ (s u : State) (w3 w2 w1 w0 h3 h2 h1 h0 ch cs : Byte), TurnOf s .core u → Claims.InHeader u →
    14 ≤ u.inLen.toNat →
    Claims.InputHolds u 0 [0x71, 0x6F, 0x69, 0x66, w3, w2, w1, w0, h3, h2, h1, h0, ch, cs] →
    ch.toNat = 3 ∨ ch.toNat = 4 →
    u.params.outCapacity < Claims.beValue w3 w2 w1 w0 * Claims.beValue h3 h2 h1 h0 * ch.toNat →
    ∃ t, step s = .next t ∧
      Claims.ErrorEntered
        { u with width := t.width, height := t.height, channels := ch, colorspace := cs } .outOfCapacity t ∧
      t.width.toNat = Claims.beValue w3 w2 w1 w0 ∧ t.height.toNat = Claims.beValue h3 h2 h1 h0

/-- R104, R106, R54: a good header sets the header registers and every decode register; an empty image is DONE at once, and
PHASE then has no value (R22; log 4). That the decode registers hold the values of R106 in that DONE state too is log 5. -/
def Obligations.GoodHeaderStartsThePixelLoop : Prop :=
  ∀ (s u : State) (w3 w2 w1 w0 h3 h2 h1 h0 ch cs : Byte), TurnOf s .core u → Claims.InHeader u →
    14 ≤ u.inLen.toNat →
    Claims.InputHolds u 0 [0x71, 0x6F, 0x69, 0x66, w3, w2, w1, w0, h3, h2, h1, h0, ch, cs] →
    ch.toNat = 3 ∨ ch.toNat = 4 →
    Claims.beValue w3 w2 w1 w0 * Claims.beValue h3 h2 h1 h0 * ch.toNat ≤ u.params.outCapacity →
    ∃ t, step s = .next t ∧
      t.width.toNat = Claims.beValue w3 w2 w1 w0 ∧ t.height.toNat = Claims.beValue h3 h2 h1 h0 ∧
      t.npix.toNat = Claims.beValue w3 w2 w1 w0 * Claims.beValue h3 h2 h1 h0 ∧
      (∀ k : Fin 64, t.cache.get k = ⟨0, 0, 0, 0⟩) ∧
      (t.npix = 0 → t.status = .done) ∧ (t.npix ≠ 0 → t.status = .busy ∧ t.phase = .pixels ∧ t.freeCtr = u.freeCtr) ∧
      t = { u with channels := ch, colorspace := cs, width := t.width, height := t.height, npix := t.npix,
                   cache := t.cache, px := ⟨0, 0, 0, 255⟩, run := 0, pos := 14, pixcnt := 0, outpos := 0,
                   phase := t.phase, status := t.status, freeCtr := t.freeCtr }

/-! ## The host's registers and ports (spec/10_state.md, 20_memory.md, 44_raster_port.md, 70_reset_and_hazards.md) -/

/-- R34, R32, R35: STATUS, ERR, CTRL and IN_LEN read in every state, their reserved bits 0. -/
def Obligations.ControlRegistersAlwaysRead : Prop :=
  ∀ (s u : State) (n : Nat), TurnOf s (.host (.readReg n)) u → n ≤ 3 →
    ∃ v, step s = .next { u with answer := some (.value v) } ∧
      (n = 0 → v.toNat = match u.status with | .idle => 0 | .busy => 1 | .done => 2 | .error => 3) ∧
      (n = 1 → v.toNat = match u.err with
        | .none => 0 | .invalidFormat => 1 | .decodeError => 2 | .outOfCapacity => 3) ∧
      (n = 2 → v = 0) ∧ (n = 3 → v = u.inLen)

/-- R34, R33: the result registers read while DONE, their reserved bits 0. -/
def Obligations.ResultRegistersReadWhenDone : Prop :=
  ∀ (s u : State) (n : Nat), TurnOf s (.host (.readReg n)) u → 4 ≤ n → n ≤ 7 → u.status = .done →
    ∃ v, step s = .next { u with answer := some (.value v) } ∧
      (n = 4 → v = u.width) ∧ (n = 5 → v = u.height) ∧
      (n = 6 → v.toNat = u.channels.toNat) ∧ (n = 7 → v.toNat = u.colorspace.toNat)

/-- R35, R34: a result register read unless DONE, and any access to a register number above 7, stop by name. -/
def Obligations.RegisterAccessesThatStop : Prop :=
  ∀ (s u : State) (n : Nat),
    (TurnOf s (.host (.readReg n)) u → 4 ≤ n → n ≤ 7 →
      (u.status = .busy → step s = .refused (.resultRegisterWhileBusy n)) ∧
      (u.status = .idle ∨ u.status = .error → step s = .fault (.resultRegisterNoValue n))) ∧
    (TurnOf s (.host (.readReg n)) u → 8 ≤ n → step s = .refused (.unknownRegister n)) ∧
    (∀ v, TurnOf s (.host (.writeReg n v)) u → 8 ≤ n → step s = .refused (.unknownRegister n))

/-- R34, R32: a write of a read-only register, and of CTRL with bit 0 clear, has no effect, in any state. -/
def Obligations.WritesWithoutEffect : Prop :=
  ∀ (s u : State) (n : Nat) (v : BitVec 32), TurnOf s (.host (.writeReg n v)) u →
    (n = 0 ∨ n = 1 ∨ 4 ≤ n ∧ n ≤ 7 ∨ n = 2 ∧ v.toNat % 2 = 0) → step s = .next { u with answer := none }

/-- R58, R31: INWRITE sets one byte of IN and nothing else; an IN_LEN write sets IN_LEN and nothing else. -/
def Obligations.HostLoadsTheInput : Prop :=
  ∀ (s u : State), u.status ≠ .busy →
    (∀ a v, TurnOf s (.host (.inWrite a v)) u → a < u.params.inCapacity →
      ∃ t, step s = .next t ∧ t = { u with inMem := t.inMem, answer := none } ∧
        ∀ x, Memory.read t.inMem x = if x = a then some v else Memory.read u.inMem x) ∧
    (∀ v, TurnOf s (.host (.writeReg 3 v)) u → v.toNat ≤ u.params.inCapacity →
      step s = .next { u with inLen := v, answer := none })

/-- R236, R237: what is refused while BUSY, and beyond IN_CAPACITY in every state. The names of the refusals, and that BUSY
decides before the operand, are the model's choice (log 9). -/
def Obligations.InputWritesThatAreRefused : Prop :=
  ∀ (s u : State),
    (∀ v, TurnOf s (.host (.writeReg 2 v)) u → u.status = .busy → v.toNat % 2 = 1 →
      step s = .refused .startWhileBusy) ∧
    (∀ a v, TurnOf s (.host (.inWrite a v)) u → u.status = .busy → step s = .refused .inWriteWhileBusy) ∧
    (∀ v, TurnOf s (.host (.writeReg 3 v)) u → u.status = .busy → step s = .refused .inLenWhileBusy) ∧
    (∀ a v, TurnOf s (.host (.inWrite a v)) u → u.status ≠ .busy → u.params.inCapacity ≤ a →
      step s = .refused (.inWriteBeyondCapacity a)) ∧
    (∀ v, TurnOf s (.host (.writeReg 3 v)) u → u.status ≠ .busy → u.params.inCapacity < v.toNat →
      step s = .refused (.inLenBeyondCapacity v))

/-- R181, R184: GET of a pixel of the image; A is 255 on a 3-channel image. -/
def Obligations.GetAnswersTheStoredPixel : Prop :=
  ∀ (s u : State) (x y : BitVec 32), TurnOf s (.host (.getPixel x y)) u → u.status = .done → DoneInv u →
    x.toNat < u.width.toNat → y.toNat < u.height.toNat →
    ∃ p, step s = .next { u with answer := some (.pixel p) } ∧
      (∀ c < 3, Memory.read u.outMem ((y.toNat * u.width.toNat + x.toNat) * u.channels.toNat + c) =
        some (Claims.chan p c)) ∧
      (u.channels = 4 →
        Memory.read u.outMem ((y.toNat * u.width.toNat + x.toNat) * u.channels.toNat + 3) = some p.a) ∧
      (u.channels = 3 → p.a = 255)

/-- R183, R185: SET stores the channels of the pixel at its address and changes no other byte and no register. -/
def Obligations.SetStoresThePixel : Prop :=
  ∀ (s u : State) (x y : BitVec 32) (p : Pixel), TurnOf s (.host (.setPixel x y p)) u → u.status = .done →
    ImageInv u → x.toNat < u.width.toNat → y.toNat < u.height.toNat →
    ∃ t, step s = .next t ∧ t = { u with outMem := t.outMem, answer := some .ok } ∧
      Claims.PixelStored u.outMem t.outMem ((y.toNat * u.width.toNat + x.toNat) * u.channels.toNat)
        u.channels.toNat p

/-- R182: an access out of bounds answers OutOfRange and has no other effect. -/
def Obligations.OutOfRangeAccessHasNoEffect : Prop :=
  ∀ (s u : State) (x y : BitVec 32), u.status = .done → (u.width.toNat ≤ x.toNat ∨ u.height.toNat ≤ y.toNat) →
    (TurnOf s (.host (.getPixel x y)) u → step s = .next { u with answer := some .outOfRange }) ∧
    (∀ p, TurnOf s (.host (.setPixel x y p)) u → step s = .next { u with answer := some .outOfRange })

/-- R180, R238: the raster port is refused unless DONE. -/
def Obligations.RasterPortIsRefusedUnlessDone : Prop :=
  ∀ (s u : State) (x y : BitVec 32), u.status ≠ .done →
    (TurnOf s (.host (.getPixel x y)) u → step s = .refused .rasterPortNotDone) ∧
    (∀ p, TurnOf s (.host (.setPixel x y p)) u → step s = .refused .rasterPortNotDone)

/-- R186 (a), (b): a GET right after a SET of the same pixel answers it (A 255 on 3 channels); a GET right after a SET
of another pixel answers what it would have answered before. -/
def Obligations.GetAfterSet : Prop :=
  ∀ (s : State) (x y x' y' : BitVec 32) (p : Pixel) (rest : List Turn), s.status = .done → DoneInv s →
    x.toNat < s.width.toNat → y.toNat < s.height.toNat → x'.toNat < s.width.toNat → y'.toNat < s.height.toNat →
    s.agenda = .host (.setPixel x y p) :: .host (.getPixel x' y') :: rest →
    ∃ t q, Host.Core.run Sys2Proof.core 2 s = .next t ∧ t.answer = some (.pixel q) ∧
      (x' = x ∧ y' = y → q = if s.channels = 4 then p else ⟨p.r, p.g, p.b, 255⟩) ∧
      (x' ≠ x ∨ y' ≠ y → ∃ t', step { s with agenda := [.host (.getPixel x' y')] } = .next t' ∧
        t'.answer = some (.pixel q))

/-- R230, R39: the values the spec gives after power-on reset, at power-on and at any later reset: IDLE, NONE, IN_LEN 0, and no
byte of IN or OUT with a value. -/
def Obligations.ResetValues : Prop :=
  (State.reset.status = .idle ∧ State.reset.err = .none ∧ State.reset.inLen = 0 ∧
    ∀ a, Memory.read State.reset.inMem a = none ∧ Memory.read State.reset.outMem a = none) ∧
  ∀ s u : State, TurnOf s (.host .powerOnReset) u →
    ∃ t, step s = .next t ∧ t.status = .idle ∧ t.err = .none ∧ t.inLen = 0 ∧ t.params = u.params ∧
      ∀ a, Memory.read t.inMem a = none ∧ Memory.read t.outMem a = none

/-- R233: the boot sequence, in any state but BUSY, leaves the image in IN, its length in IN_LEN and a decode begun. -/
def Obligations.BootSequenceStartsTheDecode : Prop :=
  ∀ (s : State) (image : List Byte) (rest : List Turn), Inv s → s.status ≠ .busy →
    image.length ≤ s.params.inCapacity → s.agenda = bootAgenda image ++ rest →
    ∃ t, Host.Core.run Sys2Proof.core (image.length + 2) s = .next t ∧ t.status = .busy ∧ t.phase = .header ∧
      t.agenda = rest ∧ t.inLen.toNat = image.length ∧ Claims.InputHolds t 0 image ∧ t.params = s.params

/-! ## Laws of the whole machine -/

/-- The invariant (R22, R23, R27 to R31, R118) holds right after reset, at any sizes R5 allows. -/
def Obligations.InvariantHoldsAtReset : Prop :=
  Inv State.reset ∧ ∀ p : Params, p.Legal → Inv (State.resetWith p)

/-- The invariant is kept by every step, the core's and the host's. -/
def Obligations.EveryStepKeepsTheInvariant : Prop :=
  ∀ s t : State, Inv s → step s = .next t → Inv t

/-- R117: a decode ends: from START on, a run of the core alone leaves BUSY after the header step or at one of at most NPIX
pixel steps, the NPIX-th if it ends in DONE. The size of the image is read from WIDTH and HEIGHT also in ERROR, where R203
gives them no value; that they still hold the header's fields there is the model's choice (log 12). -/
def Obligations.EveryDecodeEnds : Prop :=
  ∀ s : State, Inv s → Claims.InHeader s → s.agenda = [] → Claims.InputLoaded s →
    ∃ k t, Host.Core.run Sys2Proof.core k s = .next t ∧ (t.status = .done ∨ t.status = .error) ∧
      (∀ j, j < k → ∃ u, Host.Core.run Sys2Proof.core j s = .next u ∧ u.status = .busy) ∧
      (t.status = .done → k = 1 + t.width.toNat * t.height.toNat) ∧
      (t.status = .error → k = 1 ∨ k ≤ 1 + t.width.toNat * t.height.toNat)

/-- R107, R117, R118: a decode from the header step on computes the image that the list function `paint` gives for the
stream, pixel by pixel in raster order, in 1 + WIDTH * HEIGHT steps; and it ends in DecodeError exactly where `paint` gives none. -/
def Obligations.DecodeComputesTheReferenceImage : Prop :=
  ∀ (s : State) (w h : BitVec 32) (ch cs : Byte) (stream : List Byte), Claims.InHeader s → s.agenda = [] →
    (ch = 3 ∨ ch = 4) → Claims.InputHolds s 0 (encodeHeader w h ch cs ++ stream) →
    s.inLen.toNat = 14 + stream.length → w.toNat * h.toNat * ch.toNat ≤ s.params.outCapacity →
    (∀ image, Claims.paint (w.toNat * h.toNat) 0 ⟨0, 0, 0, 255⟩ (fun _ => ⟨0, 0, 0, 0⟩) stream = some image →
      ∃ t, Host.Core.run Sys2Proof.core (1 + w.toNat * h.toNat) s = .next t ∧ t.status = .done ∧
        t.width = w ∧ t.height = h ∧ t.channels = ch ∧ t.colorspace = cs ∧ image.length = w.toNat * h.toNat ∧
        ∀ i c p, image[i]? = some p → c < ch.toNat →
          Memory.read t.outMem (i * ch.toNat + c) = some (Claims.chan p c)) ∧
    (Claims.paint (w.toNat * h.toNat) 0 ⟨0, 0, 0, 255⟩ (fun _ => ⟨0, 0, 0, 0⟩) stream = none →
      ∃ k t, Host.Core.run Sys2Proof.core k s = .next t ∧ t.status = .error ∧ t.err = .decodeError)

/-- R202, R203: a step in a state that meets the invariant, with the whole input written, never faults on the core's turn. -/
def Obligations.CoreNeverFaults : Prop :=
  ∀ s u : State, Inv s → Claims.InputLoaded s → TurnOf s .core u → ∃ t, step s = .next t

/-- R21: who writes STATUS, and how. -/
def Obligations.StatusTransitions : Prop :=
  ∀ s t : State, step s = .next t → t.status ≠ s.status →
    (∃ u v, TurnOf s (.host (.writeReg 2 v)) u ∧ v.toNat % 2 = 1 ∧ s.status ≠ .busy ∧ t.status = .busy) ∨
    (∃ u, TurnOf s .core u ∧ s.status = .busy ∧ (t.status = .done ∨ t.status = .error)) ∨
    (∃ u, TurnOf s (.host .powerOnReset) u ∧ t.status = .idle)

/-- R33: nothing but the header step (and reset) writes the header registers. That they stay across error entry and START,
where R203 gives them no value, is log 12. -/
def Obligations.OnlyTheHeaderStepWritesTheHeaderRegisters : Prop :=
  ∀ s t : State, step s = .next t → Claims.NotReset s →
    (∃ u, TurnOf s .core u ∧ Claims.InHeader u) ∨
    (t.width = s.width ∧ t.height = s.height ∧ t.channels = s.channels ∧ t.colorspace = s.colorspace)

/-- R65, R51, R31: no step while BUSY but a reset changes a byte of IN or IN_LEN, and no core step ever does. -/
def Obligations.InputCannotChangeUnderADecode : Prop :=
  ∀ s t : State, step s = .next t →
    (s.status = .busy ∧ Claims.NotReset s ∨ ∃ u, TurnOf s .core u) →
    t.inLen = s.inLen ∧ ∀ a, Memory.read t.inMem a = Memory.read s.inMem a

/-- R50, R60, R67, R114, R183: which OUT bytes a step may change: a pixel step those of its own pixel, all inside the raster; a
SET those of its own pixel, while DONE; error entry leaves no byte with a value (log 12). -/
def Obligations.OutBytesChangeOnlyWhereWritten : Prop :=
  ∀ (s t : State) (a : Nat), Inv s → step s = .next t → Claims.NotReset s →
    Memory.read t.outMem a ≠ Memory.read s.outMem a →
    (∃ u, TurnOf s .core u ∧ Claims.InLoop u ∧ u.outpos.toNat ≤ a ∧ a < u.outpos.toNat + u.channels.toNat ∧
      a < u.npix.toNat * u.channels.toNat) ∨
    (∃ u x y p, TurnOf s (.host (.setPixel x y p)) u ∧ u.status = .done ∧ x.toNat < u.width.toNat ∧
      y.toNat < u.height.toNat ∧ rasterOffset u x y ≤ a ∧ a < rasterOffset u x y + u.channels.toNat) ∨
    (s.status = .busy ∧ t.status = .error ∧ Memory.read t.outMem a = none)

/-- R200, R201, R202: which errors a step can record: InvalidFormat and OutOfCapacity in the header step, DecodeError in a
pixel step that starts with RUN = 0; and R67: after it no byte of OUT has a value (log 12). -/
def Obligations.WhereErrorsComeFrom : Prop :=
  ∀ s t : State, step s = .next t → t.status = .error → s.status ≠ .error →
    (∃ u, TurnOf s .core u ∧
      ((Claims.InHeader u ∧ (t.err = .invalidFormat ∨ t.err = .outOfCapacity)) ∨
       (Claims.InLoop u ∧ u.run = 0 ∧ t.err = .decodeError))) ∧
    ∀ a, Memory.read t.outMem a = none

/-- R59, R186 (c), (d): host turns that read, and every raster access, leave all the decoder's state as it is. -/
def Obligations.ReadsAndPortAccessesKeepTheDecoder : Prop :=
  ∀ (s u t : State) (r : HostReq), TurnOf s (.host r) u → step s = .next t →
    ((∃ n, r = .readReg n) ∨ (∃ x y, r = .getPixel x y) → t = { u with answer := t.answer }) ∧
    ((∃ x y p, r = .setPixel x y p) → t = { u with outMem := t.outMem, answer := t.answer })

/-- R214, R5: a step of one instance does what that instance does alone and changes no other, nor the number of instances,
which is at least one; steps of two instances lead to the same system in either order. -/
def Obligations.InstancesShareNothing : Prop :=
  (∀ (sys sys' : System) (k : Nat), System.step k sys = .next sys' →
    (∀ j, j ≠ k → sys'.get j = sys.get j) ∧ 1 ≤ sys.count ∧ sys'.count = sys.count ∧
    ∃ s t, sys.get k = some s ∧ step s = .next t ∧ sys'.get k = some t) ∧
  ∀ (sys a : System) (j k : Nat), j ≠ k → System.run [j, k] sys = .next a → System.run [k, j] sys = .next a
end

