-- ==== Sys2Proof/Laws/Codec.lean ====
section
/-! SUPPORT. Small laws of the fields: their ranges, and that a biased field and its delta determine each other. -/

namespace Sys2Proof

/-- A delta is in range when its field is. -/
theorem unbias_inBias {bias : Nat} {f : Byte} (h : f.toNat ≤ 2 * bias - 1) (hb : 1 ≤ bias) :
    InBias bias (unbias bias f) := by
  simp only [InBias, unbias]; omega

/-- The field that encodes a delta in range. -/
theorem biased_toNat {bias : Nat} {d : Int} (h : InBias bias d) (hb : bias ≤ 128) :
    ((biased bias d).toNat : Int) = d + bias := by
  simp only [InBias] at h
  simp only [biased, BitVec.toNat_ofNat]
  omega

/-- The delta of the field that encodes it. -/
theorem unbias_biased {bias : Nat} {d : Int} (h : InBias bias d) (hb : bias ≤ 128) :
    unbias bias (biased bias d) = d := by
  simp only [unbias, biased_toNat h hb]; omega

/-- The field that encodes the delta of a field. -/
theorem biased_unbias (bias : Nat) (f : Byte) : biased bias (unbias bias f) = f := by
  apply BitVec.eq_of_toNat_eq
  simp only [biased, unbias, BitVec.toNat_ofNat]
  have := f.isLt
  have : ((f.toNat : Int) - bias + bias).toNat = f.toNat := by omega
  rw [this]; omega

/-- A field cut out by a mask is at most the mask. -/
theorem and_le_mask (b m : Byte) : (b &&& m).toNat ≤ m.toNat := by
  rw [BitVec.toNat_and]; exact Nat.and_le_right

/-- The four bytes of a 32-bit value give it back (spec/20_memory.md R54). -/
theorem be32_bytes (v : BitVec 32) :
    be32 (v.extractLsb' 24 8) (v.extractLsb' 16 8) (v.extractLsb' 8 8) (v.extractLsb' 0 8) = v := by
  apply BitVec.eq_of_toNat_eq
  simp only [be32, BitVec.toNat_append, BitVec.extractLsb'_toNat]
  have := v.isLt
  rw [← Nat.shiftLeft_add_eq_or_of_lt (by omega), ← Nat.shiftLeft_add_eq_or_of_lt (by omega),
    ← Nat.shiftLeft_add_eq_or_of_lt (by omega)]
  simp only [Nat.shiftLeft_eq, Nat.shiftRight_eq_div_pow]
  omega

/-- `be32` by arithmetic (spec/20_memory.md R54). -/
theorem be32_toNat (b0 b1 b2 b3 : Byte) :
    (be32 b0 b1 b2 b3).toNat =
      b0.toNat * 2 ^ 24 + b1.toNat * 2 ^ 16 + b2.toNat * 2 ^ 8 + b3.toNat := by
  have h1 := b1.isLt
  have h2 := b2.isLt
  have h3 := b3.isLt
  simp only [be32, BitVec.toNat_append]
  rw [← Nat.shiftLeft_add_eq_or_of_lt (by omega), ← Nat.shiftLeft_add_eq_or_of_lt (by omega),
    ← Nat.shiftLeft_add_eq_or_of_lt (by omega)]
  simp only [Nat.shiftLeft_eq]
  omega

end Sys2Proof
end

