-- ==== Sys2Proof/Laws/Memory.lean ====
section
/-! SUPPORT. The laws of the byte memories: a read after a write, the canonical form, and what a list of bytes leaves. -/

namespace Sys2Proof.Machine

@[simp] theorem Memory.read_nil (a : Nat) : Memory.read [] a = none := rfl

/-- A read after a write of one byte. -/
theorem Memory.read_write (m : List Host.Cell) (a x : Nat) (v : Byte) :
    Memory.read (Memory.write m a v) x = if a = x then some v else Memory.read m x := by
  induction m with
  | nil => simp [Memory.write, Memory.read]
  | cons c rest ih =>
    obtain ⟨k, w⟩ := c
    simp only [Memory.write]
    by_cases h1 : a < k
    · simp [h1, Memory.read]
    · by_cases h2 : a = k
      · subst h2; simp [Memory.read]; by_cases h : a = x <;> simp [h]
      · simp only [h1, h2, if_false, Memory.read, ih]
        by_cases h3 : k = x
        · have : a ≠ x := by omega
          simp [h3, this]
        · simp [h3]

theorem Memory.read_write_self (m : List Host.Cell) (a : Nat) (v : Byte) :
    Memory.read (Memory.write m a v) a = some v := by simp [Memory.read_write]

theorem Memory.read_write_other (m : List Host.Cell) {a x : Nat} (v : Byte) (h : a ≠ x) :
    Memory.read (Memory.write m a v) x = Memory.read m x := by simp [Memory.read_write, h]

/-- An address a cell of the written memory has is the written one or an old one. -/
theorem Memory.mem_write {m : List Host.Cell} {a : Nat} {v : Byte} {c : Host.Cell}
    (h : c ∈ Memory.write m a v) : c.1 = a ∨ c ∈ m := by
  induction m with
  | nil => simp [Memory.write] at h; simp [h]
  | cons d rest ih =>
    obtain ⟨k, w⟩ := d
    simp only [Memory.write] at h
    split at h
    · rcases List.mem_cons.1 h with rfl | h'
      · exact .inl rfl
      · exact .inr h'
    · split at h
      · rcases List.mem_cons.1 h with rfl | h'
        · exact .inl rfl
        · exact .inr (List.mem_cons_of_mem _ h')
      · rcases List.mem_cons.1 h with rfl | h'
        · exact .inr (by simp)
        · rcases ih h' with h'' | h''
          · exact .inl h''
          · exact .inr (List.mem_cons_of_mem _ h'')

/-- A write keeps the canonical form. -/
theorem Memory.write_wf {m : List Host.Cell} (hm : Memory.wf m) (a : Nat) (v : Byte) :
    Memory.wf (Memory.write m a v) := by
  induction m with
  | nil => simp [Memory.write]
  | cons d rest ih =>
    obtain ⟨k, w⟩ := d
    obtain ⟨hk, hrest⟩ := List.pairwise_cons.1 hm
    simp only [Memory.write]
    split
    · refine List.pairwise_cons.2 ⟨fun c hc => ?_, hm⟩
      rcases List.mem_cons.1 hc with rfl | hc'
      · assumption
      · have := hk c hc'; simp only at *; omega
    · split
      · rename_i _ heq; subst heq; exact List.pairwise_cons.2 ⟨hk, hrest⟩
      · refine List.pairwise_cons.2 ⟨fun c hc => ?_, ih hrest⟩
        rcases Memory.mem_write hc with h | h
        · simp only at *; omega
        · exact hk c h

theorem Memory.writeBytes_wf {m : List Host.Cell} (hm : Memory.wf m) (a : Nat) (vs : List Byte) :
    Memory.wf (Memory.writeBytes m a vs) := by
  induction vs generalizing m a with
  | nil => exact hm
  | cons v vs ih => exact ih (Memory.write_wf hm a v) (a + 1)

/-- A read after a write of consecutive bytes. -/
theorem Memory.read_writeBytes (m : List Host.Cell) (a x : Nat) (vs : List Byte) :
    Memory.read (Memory.writeBytes m a vs) x =
      if a ≤ x ∧ x < a + vs.length then vs[x - a]? else Memory.read m x := by
  induction vs generalizing m a with
  | nil => simp [Memory.writeBytes]
  | cons v vs ih =>
    simp only [Memory.writeBytes, ih, Memory.read_write, List.length_cons]
    by_cases h0 : a = x
    · subst h0; simp
    · by_cases h1 : a + 1 ≤ x ∧ x < a + 1 + vs.length
      · have h2 : a ≤ x ∧ x < a + (vs.length + 1) := by omega
        have h3 : x - a = (x - (a + 1)) + 1 := by omega
        simp [h1, h2, h3]
      · have h2 : ¬(a ≤ x ∧ x < a + (vs.length + 1)) := by omega
        rw [if_neg h1, if_neg h2, if_neg h0]

/-- In canonical form, every listed address after the first is above it. -/
theorem Memory.read_below {k : Nat} {w : Byte} {rest : List Host.Cell}
    (hm : Memory.wf ((k, w) :: rest)) {a : Nat} (h : a ≤ k) : Memory.read rest a = none := by
  obtain ⟨hk, hrest⟩ := List.pairwise_cons.1 hm
  clear hm
  induction rest with
  | nil => rfl
  | cons c rest ih =>
    obtain ⟨k', w'⟩ := c
    have h' := hk _ (by simp : ((k', w') : Host.Cell) ∈ (k', w') :: rest)
    simp only at h'
    have : k' ≠ a := by omega
    simp only [Memory.read, this, if_false]
    exact ih (fun c hc => hk c (List.mem_cons_of_mem _ hc)) (List.pairwise_cons.1 hrest).2

/-- Equal memories are equal data: the canonical form is unique. -/
theorem Memory.ext_of_wf {m m' : List Host.Cell} (hm : Memory.wf m) (hm' : Memory.wf m')
    (h : ∀ a, Memory.read m a = Memory.read m' a) : m = m' := by
  induction m generalizing m' with
  | nil =>
    cases m' with
    | nil => rfl
    | cons c _ => have := h c.1; simp [Memory.read] at this
  | cons c rest ih =>
    obtain ⟨k, w⟩ := c
    cases m' with
    | nil => have := h k; simp [Memory.read] at this
    | cons c' rest' =>
      obtain ⟨k', w'⟩ := c'
      have hkk : k = k' := by
        rcases Nat.lt_trichotomy k k' with hlt | heq | hgt
        · have h1 := h k
          have h2 := Memory.read_below hm' (Nat.le_of_lt hlt)
          have : k' ≠ k := by omega
          simp [Memory.read, this, h2] at h1
        · exact heq
        · have h1 := h k'
          have h2 := Memory.read_below hm (Nat.le_of_lt hgt)
          have : k ≠ k' := by omega
          simp [Memory.read, this, h2] at h1
      subst hkk
      have hww : w = w' := by have := h k; simpa [Memory.read] using this
      subst hww
      congr 1
      refine ih (List.pairwise_cons.1 hm).2 (List.pairwise_cons.1 hm').2 fun a => ?_
      by_cases hka : k = a
      · subst hka
        rw [Memory.read_below hm (Nat.le_refl _), Memory.read_below hm' (Nat.le_refl _)]
      · have := h a; simpa [Memory.read, hka] using this

/-- Every listed address still exists after a write that fits. -/
theorem Within.writeBytes {m : List Host.Cell} {cap a : Nat} {vs : List Byte} (hm : Within m cap)
    (h : a + vs.length ≤ cap) : Within (Memory.writeBytes m a vs) cap := by
  intro x v hx
  rw [Memory.read_writeBytes] at hx
  split at hx
  · omega
  · exact hm x v hx

theorem Within.write {m : List Host.Cell} {cap a : Nat} {v : Byte} (hm : Within m cap) (h : a < cap) :
    Within (Memory.write m a v) cap := by
  intro x w hx
  rw [Memory.read_write] at hx
  split at hx
  · omega
  · exact hm x w hx

/-- Bytes written where a filled part ends lengthen it. -/
theorem Filled.writeBytes {m : List Host.Cell} {n : Nat} (hm : Filled m n) (vs : List Byte) :
    Filled (Memory.writeBytes m n vs) (n + vs.length) := by
  intro x hx
  rw [Memory.read_writeBytes]
  split
  · rename_i h
    exact ⟨vs[x - n]'(by omega), List.getElem?_eq_getElem (by omega)⟩
  · exact hm x (by omega)

/-- A write takes no value away. -/
theorem Filled.keep {m : List Host.Cell} {n : Nat} (hm : Filled m n) (a : Nat) (vs : List Byte) :
    Filled (Memory.writeBytes m a vs) n := by
  intro x hx
  rw [Memory.read_writeBytes]
  split
  · exact ⟨vs[x - a]'(by omega), List.getElem?_eq_getElem (by omega)⟩
  · exact hm x hx

theorem Filled.mono {m : List Host.Cell} {n k : Nat} (hm : Filled m n) (h : k ≤ n) : Filled m k :=
  fun a ha => hm a (by omega)

end Sys2Proof.Machine
end

