-- ==== Sys2Proof/Laws/State.lean ====
section
/-! SUPPORT. One lemma per field per named update of the state, so that no proof unfolds a record update. -/

namespace Sys2Proof.Machine

variable (s : State) (n : Nat) (e : ErrKind) (h : Header) (c : Prop) [Decidable c]

@[simp] theorem cacheWrite_status : (cacheWrite s).status = s.status := rfl
@[simp] theorem cacheWrite_phase : (cacheWrite s).phase = s.phase := rfl
@[simp] theorem cacheWrite_err : (cacheWrite s).err = s.err := rfl
@[simp] theorem cacheWrite_px : (cacheWrite s).px = s.px := rfl
@[simp] theorem cacheWrite_cache : (cacheWrite s).cache = s.cache.set (slotOf s.px).val s.px (slotOf s.px).isLt := rfl
@[simp] theorem cacheWrite_run : (cacheWrite s).run = s.run := rfl
@[simp] theorem cacheWrite_pos : (cacheWrite s).pos = s.pos := rfl
@[simp] theorem cacheWrite_pixcnt : (cacheWrite s).pixcnt = s.pixcnt := rfl
@[simp] theorem cacheWrite_npix : (cacheWrite s).npix = s.npix := rfl
@[simp] theorem cacheWrite_outpos : (cacheWrite s).outpos = s.outpos := rfl
@[simp] theorem cacheWrite_inLen : (cacheWrite s).inLen = s.inLen := rfl
@[simp] theorem cacheWrite_width : (cacheWrite s).width = s.width := rfl
@[simp] theorem cacheWrite_height : (cacheWrite s).height = s.height := rfl
@[simp] theorem cacheWrite_channels : (cacheWrite s).channels = s.channels := rfl
@[simp] theorem cacheWrite_colorspace : (cacheWrite s).colorspace = s.colorspace := rfl
@[simp] theorem cacheWrite_inMem : (cacheWrite s).inMem = s.inMem := rfl
@[simp] theorem cacheWrite_outMem : (cacheWrite s).outMem = s.outMem := rfl
@[simp] theorem cacheWrite_params : (cacheWrite s).params = s.params := rfl
@[simp] theorem cacheWrite_freeCtr : (cacheWrite s).freeCtr = s.freeCtr := rfl
@[simp] theorem cacheWrite_agenda : (cacheWrite s).agenda = s.agenda := rfl
@[simp] theorem cacheWrite_answer : (cacheWrite s).answer = s.answer := rfl

@[simp] theorem advancePos_status : (advancePos n s).status = s.status := rfl
@[simp] theorem advancePos_phase : (advancePos n s).phase = s.phase := rfl
@[simp] theorem advancePos_err : (advancePos n s).err = s.err := rfl
@[simp] theorem advancePos_px : (advancePos n s).px = s.px := rfl
@[simp] theorem advancePos_cache : (advancePos n s).cache = s.cache := rfl
@[simp] theorem advancePos_run : (advancePos n s).run = s.run := rfl
@[simp] theorem advancePos_pos : (advancePos n s).pos = s.pos + BitVec.ofNat 32 n := rfl
@[simp] theorem advancePos_pixcnt : (advancePos n s).pixcnt = s.pixcnt := rfl
@[simp] theorem advancePos_npix : (advancePos n s).npix = s.npix := rfl
@[simp] theorem advancePos_outpos : (advancePos n s).outpos = s.outpos := rfl
@[simp] theorem advancePos_inLen : (advancePos n s).inLen = s.inLen := rfl
@[simp] theorem advancePos_width : (advancePos n s).width = s.width := rfl
@[simp] theorem advancePos_height : (advancePos n s).height = s.height := rfl
@[simp] theorem advancePos_channels : (advancePos n s).channels = s.channels := rfl
@[simp] theorem advancePos_colorspace : (advancePos n s).colorspace = s.colorspace := rfl
@[simp] theorem advancePos_inMem : (advancePos n s).inMem = s.inMem := rfl
@[simp] theorem advancePos_outMem : (advancePos n s).outMem = s.outMem := rfl
@[simp] theorem advancePos_params : (advancePos n s).params = s.params := rfl
@[simp] theorem advancePos_freeCtr : (advancePos n s).freeCtr = s.freeCtr := rfl
@[simp] theorem advancePos_agenda : (advancePos n s).agenda = s.agenda := rfl
@[simp] theorem advancePos_answer : (advancePos n s).answer = s.answer := rfl

@[simp] theorem completeWhen_status :
    (completeWhen c s).status = if c then .done else s.status := rfl
@[simp] theorem completeWhen_phase :
    (completeWhen c s).phase = if c then Config.freePhase s.freeCtr else s.phase := rfl
@[simp] theorem completeWhen_err : (completeWhen c s).err = s.err := rfl
@[simp] theorem completeWhen_px : (completeWhen c s).px = s.px := rfl
@[simp] theorem completeWhen_cache : (completeWhen c s).cache = s.cache := rfl
@[simp] theorem completeWhen_run : (completeWhen c s).run = s.run := rfl
@[simp] theorem completeWhen_pos : (completeWhen c s).pos = s.pos := rfl
@[simp] theorem completeWhen_pixcnt : (completeWhen c s).pixcnt = s.pixcnt := rfl
@[simp] theorem completeWhen_npix : (completeWhen c s).npix = s.npix := rfl
@[simp] theorem completeWhen_outpos : (completeWhen c s).outpos = s.outpos := rfl
@[simp] theorem completeWhen_inLen : (completeWhen c s).inLen = s.inLen := rfl
@[simp] theorem completeWhen_width : (completeWhen c s).width = s.width := rfl
@[simp] theorem completeWhen_height : (completeWhen c s).height = s.height := rfl
@[simp] theorem completeWhen_channels : (completeWhen c s).channels = s.channels := rfl
@[simp] theorem completeWhen_colorspace : (completeWhen c s).colorspace = s.colorspace := rfl
@[simp] theorem completeWhen_inMem : (completeWhen c s).inMem = s.inMem := rfl
@[simp] theorem completeWhen_outMem : (completeWhen c s).outMem = s.outMem := rfl
@[simp] theorem completeWhen_params : (completeWhen c s).params = s.params := rfl
@[simp] theorem completeWhen_freeCtr :
    (completeWhen c s).freeCtr = if c then s.freeCtr + 1 else s.freeCtr := rfl
@[simp] theorem completeWhen_agenda : (completeWhen c s).agenda = s.agenda := rfl
@[simp] theorem completeWhen_answer : (completeWhen c s).answer = s.answer := rfl

/-- Nothing happens where the condition fails. -/
theorem completeWhen_of_not {c : Prop} [Decidable c] (h : ¬c) (s : State) : completeWhen c s = s := by
  simp [completeWhen, h]

/-- While the decode goes on, PHASE is as it was; once it is done, nothing is known of it. -/
theorem completeWhen_phase_of_not {c : Prop} [Decidable c] (h : ¬c) (s : State) : (completeWhen c s).phase = s.phase := by
  rw [completeWhen_of_not h]

@[simp] theorem advanceCounters_status :
    (advanceCounters s).status = if s.pixcnt + 1 = s.npix then .done else s.status := rfl
@[simp] theorem advanceCounters_phase :
    (advanceCounters s).phase = if s.pixcnt + 1 = s.npix then Config.freePhase s.freeCtr else s.phase := rfl
@[simp] theorem advanceCounters_err : (advanceCounters s).err = s.err := rfl
@[simp] theorem advanceCounters_px : (advanceCounters s).px = s.px := rfl
@[simp] theorem advanceCounters_cache : (advanceCounters s).cache = s.cache := rfl
@[simp] theorem advanceCounters_run : (advanceCounters s).run = s.run := rfl
@[simp] theorem advanceCounters_pos : (advanceCounters s).pos = s.pos := rfl
@[simp] theorem advanceCounters_pixcnt : (advanceCounters s).pixcnt = s.pixcnt + 1 := rfl
@[simp] theorem advanceCounters_npix : (advanceCounters s).npix = s.npix := rfl
@[simp] theorem advanceCounters_outpos : (advanceCounters s).outpos = s.outpos + s.channels.zeroExtend 66 := rfl
@[simp] theorem advanceCounters_inLen : (advanceCounters s).inLen = s.inLen := rfl
@[simp] theorem advanceCounters_width : (advanceCounters s).width = s.width := rfl
@[simp] theorem advanceCounters_height : (advanceCounters s).height = s.height := rfl
@[simp] theorem advanceCounters_channels : (advanceCounters s).channels = s.channels := rfl
@[simp] theorem advanceCounters_colorspace : (advanceCounters s).colorspace = s.colorspace := rfl
@[simp] theorem advanceCounters_inMem : (advanceCounters s).inMem = s.inMem := rfl
@[simp] theorem advanceCounters_outMem : (advanceCounters s).outMem = s.outMem := rfl
@[simp] theorem advanceCounters_params : (advanceCounters s).params = s.params := rfl
@[simp] theorem advanceCounters_freeCtr :
    (advanceCounters s).freeCtr = if s.pixcnt + 1 = s.npix then s.freeCtr + 1 else s.freeCtr := rfl
@[simp] theorem advanceCounters_agenda : (advanceCounters s).agenda = s.agenda := rfl
@[simp] theorem advanceCounters_answer : (advanceCounters s).answer = s.answer := rfl

@[simp] theorem loseDecode_status : (loseDecode s).status = s.status := rfl
@[simp] theorem loseDecode_err : (loseDecode s).err = s.err := rfl
@[simp] theorem loseDecode_inLen : (loseDecode s).inLen = s.inLen := rfl
@[simp] theorem loseDecode_width : (loseDecode s).width = s.width := rfl
@[simp] theorem loseDecode_height : (loseDecode s).height = s.height := rfl
@[simp] theorem loseDecode_channels : (loseDecode s).channels = s.channels := rfl
@[simp] theorem loseDecode_colorspace : (loseDecode s).colorspace = s.colorspace := rfl
@[simp] theorem loseDecode_inMem : (loseDecode s).inMem = s.inMem := rfl
@[simp] theorem loseDecode_outMem : (loseDecode s).outMem = s.outMem := rfl
@[simp] theorem loseDecode_params : (loseDecode s).params = s.params := rfl
@[simp] theorem loseDecode_agenda : (loseDecode s).agenda = s.agenda := rfl
@[simp] theorem loseDecode_answer : (loseDecode s).answer = s.answer := rfl

@[simp] theorem raise_status : (raise e s).status = .error := rfl
@[simp] theorem raise_err : (raise e s).err = e := rfl
@[simp] theorem raise_inLen : (raise e s).inLen = s.inLen := rfl
@[simp] theorem raise_width : (raise e s).width = s.width := rfl
@[simp] theorem raise_height : (raise e s).height = s.height := rfl
@[simp] theorem raise_channels : (raise e s).channels = s.channels := rfl
@[simp] theorem raise_colorspace : (raise e s).colorspace = s.colorspace := rfl
@[simp] theorem raise_inMem : (raise e s).inMem = s.inMem := rfl
@[simp] theorem raise_outMem : (raise e s).outMem = [] := rfl
@[simp] theorem raise_params : (raise e s).params = s.params := rfl
@[simp] theorem raise_agenda : (raise e s).agenda = s.agenda := rfl
@[simp] theorem raise_answer : (raise e s).answer = s.answer := rfl

@[simp] theorem startDecode_status : (startDecode s).status = .busy := rfl
@[simp] theorem startDecode_phase : (startDecode s).phase = .header := rfl
@[simp] theorem startDecode_err : (startDecode s).err = .none := rfl
@[simp] theorem startDecode_inLen : (startDecode s).inLen = s.inLen := rfl
@[simp] theorem startDecode_width : (startDecode s).width = s.width := rfl
@[simp] theorem startDecode_height : (startDecode s).height = s.height := rfl
@[simp] theorem startDecode_channels : (startDecode s).channels = s.channels := rfl
@[simp] theorem startDecode_colorspace : (startDecode s).colorspace = s.colorspace := rfl
@[simp] theorem startDecode_inMem : (startDecode s).inMem = s.inMem := rfl
@[simp] theorem startDecode_outMem : (startDecode s).outMem = s.outMem := rfl
@[simp] theorem startDecode_params : (startDecode s).params = s.params := rfl
@[simp] theorem startDecode_agenda : (startDecode s).agenda = s.agenda := rfl
@[simp] theorem startDecode_answer : (startDecode s).answer = s.answer := rfl

@[simp] theorem setHeader_status : (setHeader h s).status = s.status := rfl
@[simp] theorem setHeader_phase : (setHeader h s).phase = s.phase := rfl
@[simp] theorem setHeader_err : (setHeader h s).err = s.err := rfl
@[simp] theorem setHeader_px : (setHeader h s).px = s.px := rfl
@[simp] theorem setHeader_cache : (setHeader h s).cache = s.cache := rfl
@[simp] theorem setHeader_run : (setHeader h s).run = s.run := rfl
@[simp] theorem setHeader_pos : (setHeader h s).pos = s.pos := rfl
@[simp] theorem setHeader_pixcnt : (setHeader h s).pixcnt = s.pixcnt := rfl
@[simp] theorem setHeader_npix : (setHeader h s).npix = s.npix := rfl
@[simp] theorem setHeader_outpos : (setHeader h s).outpos = s.outpos := rfl
@[simp] theorem setHeader_inLen : (setHeader h s).inLen = s.inLen := rfl
@[simp] theorem setHeader_width : (setHeader h s).width = h.width := rfl
@[simp] theorem setHeader_height : (setHeader h s).height = h.height := rfl
@[simp] theorem setHeader_channels : (setHeader h s).channels = h.channels := rfl
@[simp] theorem setHeader_colorspace : (setHeader h s).colorspace = h.colorspace := rfl
@[simp] theorem setHeader_inMem : (setHeader h s).inMem = s.inMem := rfl
@[simp] theorem setHeader_outMem : (setHeader h s).outMem = s.outMem := rfl
@[simp] theorem setHeader_params : (setHeader h s).params = s.params := rfl
@[simp] theorem setHeader_freeCtr : (setHeader h s).freeCtr = s.freeCtr := rfl
@[simp] theorem setHeader_agenda : (setHeader h s).agenda = s.agenda := rfl
@[simp] theorem setHeader_answer : (setHeader h s).answer = s.answer := rfl

@[simp] theorem initDecode_status :
    (initDecode s).status = if s.npix = 0 then .done else s.status := rfl
@[simp] theorem initDecode_phase :
    (initDecode s).phase = if s.npix = 0 then Config.freePhase s.freeCtr else .pixels := rfl
@[simp] theorem initDecode_err : (initDecode s).err = s.err := rfl
@[simp] theorem initDecode_px : (initDecode s).px = Pixel.start := rfl
@[simp] theorem initDecode_cache : (initDecode s).cache = Cache.zero := rfl
@[simp] theorem initDecode_run : (initDecode s).run = 0 := rfl
@[simp] theorem initDecode_pos : (initDecode s).pos = 14 := rfl
@[simp] theorem initDecode_pixcnt : (initDecode s).pixcnt = 0 := rfl
@[simp] theorem initDecode_npix : (initDecode s).npix = s.npix := rfl
@[simp] theorem initDecode_outpos : (initDecode s).outpos = 0 := rfl
@[simp] theorem initDecode_inLen : (initDecode s).inLen = s.inLen := rfl
@[simp] theorem initDecode_width : (initDecode s).width = s.width := rfl
@[simp] theorem initDecode_height : (initDecode s).height = s.height := rfl
@[simp] theorem initDecode_channels : (initDecode s).channels = s.channels := rfl
@[simp] theorem initDecode_colorspace : (initDecode s).colorspace = s.colorspace := rfl
@[simp] theorem initDecode_inMem : (initDecode s).inMem = s.inMem := rfl
@[simp] theorem initDecode_outMem : (initDecode s).outMem = s.outMem := rfl
@[simp] theorem initDecode_params : (initDecode s).params = s.params := rfl
@[simp] theorem initDecode_freeCtr :
    (initDecode s).freeCtr = if s.npix = 0 then s.freeCtr + 1 else s.freeCtr := rfl
@[simp] theorem initDecode_agenda : (initDecode s).agenda = s.agenda := rfl
@[simp] theorem initDecode_answer : (initDecode s).answer = s.answer := rfl

end Sys2Proof.Machine
end

