-- ==== Sys2Proof/Laws/Ops.lean ====
section
/-! SUPPORT. One lemma per shared operation: what it answers, and when. -/

namespace Sys2Proof.Machine

/-! ## Operands -/

theorem addDelta_toNat (ch : Byte) (d : Int) : ((addDelta ch d).toNat : Int) = (ch.toNat + d) % 256 := by
  simp [addDelta, BitVec.toNat_ofInt]
  omega

theorem channelOf_toNat (v : Int) : ((channelOf v).toNat : Int) = v % 256 := by
  simp [channelOf, BitVec.toNat_ofInt]
  omega

theorem slotOf_val (p : Pixel) : (slotOf p).val = (p.r ^^^ p.g ^^^ p.b ^^^ p.a).toNat % 64 := rfl

theorem storedBytes_length {ch : Byte} (h : ch = 3 ∨ ch = 4) (p : Pixel) :
    (storedBytes ch p).length = ch.toNat := by
  rcases h with rfl | rfl <;> rfl

/-- The product of two 32-bit sizes is exact in 64 bits (spec/00_scope.md R6). -/
theorem pixelTotal_toNat (w h : BitVec 32) : (pixelTotal w h).toNat = w.toNat * h.toNat := by
  have hw : w.toNat ≤ 2 ^ 32 - 1 := by have := w.isLt; omega
  have hh : h.toNat ≤ 2 ^ 32 - 1 := by have := h.isLt; omega
  have : w.toNat * h.toNat ≤ (2 ^ 32 - 1) * (2 ^ 32 - 1) := Nat.mul_le_mul hw hh
  simp only [pixelTotal, BitVec.truncate_eq_setWidth, BitVec.toNat_mul, BitVec.toNat_setWidth]
  rw [Nat.mod_eq_of_lt (by omega : w.toNat < 2 ^ 64), Nat.mod_eq_of_lt (by omega : h.toNat < 2 ^ 64)]
  exact Nat.mod_eq_of_lt (by omega)

/-! ## The cache write -/

theorem cacheWrite_get (s : State) (k : Fin 64) :
    (cacheWrite s).cache[k] = if k = slotOf s.px then s.px else s.cache[k] := by
  simp only [cacheWrite_cache, Fin.getElem_fin, Vector.getElem_set]
  by_cases h : (slotOf s.px).val = k.val
  · simp [h, Fin.ext h.symm]
  · have : k ≠ slotOf s.px := fun hk => h (by rw [hk])
    simp [h, this]

/-- The cache write keeps R27. -/
theorem cacheWrite_inv {s : State} (h : CacheInv s.cache) : CacheInv (cacheWrite s).cache := by
  intro k
  rw [cacheWrite_get]
  split
  · rename_i hk; exact .inr hk.symm
  · exact h k

theorem cacheZero_get (k : Fin 64) : Cache.zero[k] = Pixel.zero := by
  simp [Cache.zero]

theorem cacheZero_inv : CacheInv Cache.zero := fun k => .inl (cacheZero_get k)

/-! ## Input reads -/

theorem inAvail_iff {s : State} {a n : Nat} : inAvail s a n = true ↔ a + n ≤ s.inLen.toNat := by
  simp [inAvail]

theorem inRead_ok_iff {s : State} {a : Nat} {v : Byte} :
    inRead s a = .ok v ↔ a < s.params.inCapacity ∧ Memory.read s.inMem a = some v := by
  simp only [inRead]
  split
  · rename_i h
    cases hr : Memory.read s.inMem a <;> simp [h]
  · rename_i h; simp [h]

/-- The bytes read are those of the memory, one by one. -/
theorem inReadBytes_ok_iff {s : State} {n : Nat} : ∀ {a : Nat} {vs : List Byte},
    inReadBytes s a n = .ok vs ↔ vs.length = n ∧ ∀ j v, vs[j]? = some v → inRead s (a + j) = .ok v := by
  induction n with
  | zero =>
    intro a vs
    simp only [inReadBytes, Except.ok.injEq]
    constructor
    · rintro rfl; simp
    · rintro ⟨h, -⟩; exact (List.length_eq_zero_iff.1 h).symm
  | succ n ih =>
    intro a vs
    simp only [inReadBytes, bind, Except.bind]
    constructor
    · intro h
      split at h
      · cases h
      · rename_i v hv
        split at h
        · cases h
        · rename_i ws hws
          cases h
          obtain ⟨hl, hr⟩ := ih.1 hws
          refine ⟨by simp [hl], fun j w hj => ?_⟩
          cases j with
          | zero => simp at hj; subst hj; exact hv
          | succ j => rw [← hr j w (by simpa using hj)]; congr 1; omega
    · rintro ⟨hl, hr⟩
      cases vs with
      | nil => simp at hl
      | cons v ws =>
        have h0 : inRead s a = .ok v := hr 0 v (by simp)
        have h1 : inReadBytes s (a + 1) n = .ok ws := by
          refine ih.2 ⟨by simpa using hl, fun j w hj => ?_⟩
          rw [← hr (j + 1) w (by simpa using hj)]; congr 1; omega
        rw [h0]; simp only [h1]

/-- Reads see nothing but IN and its size. -/
theorem inRead_congr {s s' : State} (hm : ∀ a, Memory.read s'.inMem a = Memory.read s.inMem a)
    (hp : s'.params = s.params) (a : Nat) : inRead s' a = inRead s a := by
  simp [inRead, hm, hp]

/-- Where every input byte has a value, the bytes below IN_LEN can be read. -/
theorem inReadBytes_total {s : State} (hf : Filled s.inMem s.inLen.toNat)
    (hc : s.inLen.toNat ≤ s.params.inCapacity) : ∀ {n a : Nat}, a + n ≤ s.inLen.toNat →
    ∃ vs, inReadBytes s a n = .ok vs ∧ vs.length = n := by
  intro n
  induction n with
  | zero => intro a _; exact ⟨[], rfl, rfl⟩
  | succ n ih =>
    intro a h
    obtain ⟨v, hv⟩ := hf a (by omega)
    obtain ⟨vs, hvs, hl⟩ := ih (a := a + 1) (by omega)
    have h0 : inRead s a = .ok v := inRead_ok_iff.2 ⟨by omega, hv⟩
    exact ⟨v :: vs, by simp [inReadBytes, bind, Except.bind, h0, hvs], by simp [hl]⟩

/-! ## Output -/

theorem outRead_ok_iff {s : State} {a : Nat} {v : Byte} :
    outRead s a = .ok v ↔ a < s.params.outCapacity ∧ Memory.read s.outMem a = some v := by
  simp only [outRead]
  split
  · rename_i h
    cases hr : Memory.read s.outMem a <;> simp [h]
  · rename_i h; simp [h]

theorem outWriteBytes_ok_iff {s t : State} {a : Nat} {vs : List Byte} :
    outWriteBytes s a vs = .ok t ↔ a + vs.length ≤ s.params.outCapacity ∧
      t = { s with outMem := Memory.writeBytes s.outMem a vs } := by
  simp only [outWriteBytes]
  split
  · rename_i h; simp [h, eq_comm]
  · rename_i h; simp [h]

/-! ## Outcomes -/

@[simp] theorem andThen_next (s : State) (f : State → Host.Outcome State Fault Refusal) :
    andThen (.next s) f = f s := rfl

@[simp] theorem outcomeOf_ok (s : State) : outcomeOf (.ok s) = .next s := rfl

theorem andThen_eq_next {o : Host.Outcome State Fault Refusal} {f : State → Host.Outcome State Fault Refusal}
    {t : State} (h : andThen o f = .next t) : ∃ s, o = .next s ∧ f s = .next t := by
  cases o with
  | next s => exact ⟨s, rfl, h⟩
  | fault _ => cases h
  | refused _ => cases h

theorem outcomeOf_eq_next {e : Except Fault State} {t : State} (h : outcomeOf e = .next t) : e = .ok t := by
  cases e with
  | ok s => cases h; rfl
  | error _ => cases h

end Sys2Proof.Machine
end

