-- ==== Sys2Proof/Laws/PerInstr.lean ====
section
/-! SUPPORT. Laws stated per instruction, one lemma per constructor. The family EncodeLength: an encoding is as long as spec/30_encoding.md R72 says, one to five bytes. -/

/-- An encoding has `Instr.length` bytes, between 1 and 5 (R72). -/
def Sys2Proof.Laws.EncodeLength.Statement (i : Sys2Proof.Instr) : Prop :=
  (Sys2Proof.encode i).length = i.length ∧ 1 ≤ i.length ∧ i.length ≤ Sys2Proof.maxOpLength

namespace Sys2Proof.Laws.EncodeLength

theorem index (k : Fin 64) : Statement (.index k) := by
  simp [Statement, encode, Instr.length, maxOpLength]

theorem runShort (n : Nat) : Statement (.runShort n) := by
  simp [Statement, encode, Instr.length, maxOpLength]

theorem runLong (n : Nat) : Statement (.runLong n) := by
  simp [Statement, encode, Instr.length, maxOpLength]

theorem diffSmall (dr dg db : Int) : Statement (.diffSmall dr dg db) := by
  simp [Statement, encode, Instr.length, maxOpLength]

theorem diffMedium (dr dg db : Int) : Statement (.diffMedium dr dg db) := by
  simp [Statement, encode, Instr.length, maxOpLength]

theorem diffLarge (vr vg vb va : Int) : Statement (.diffLarge vr vg vb va) := by
  simp [Statement, encode, Instr.length, maxOpLength]

theorem literal (r g b a : Option Byte) : Statement (.literal r g b a) := by
  cases r <;> cases g <;> cases b <;> cases a <;> simp [Statement, encode, Instr.length, maxOpLength]

end Sys2Proof.Laws.EncodeLength
end

