-- ==== Sys2Proof/Laws/Steps.lean ====
section
/-! SUPPORT. What a step can do, said once: the turn of the agenda, the effect of an opcode, the end of a pixel step, and the cases of the core's turn. -/

namespace Sys2Proof.Machine

/-! ## Turns -/

theorem step_core {s u : State} (h : TurnOf s .core u) : step s = coreTurn u := by
  rcases h with ⟨ha, -, rfl⟩ | ⟨rest, ha, rfl⟩ <;> simp [step, ha]

theorem step_host {s u : State} {r : HostReq} (h : TurnOf s (.host r) u) : step s = hostTurn r u := by
  rcases h with ⟨-, h', -⟩ | ⟨rest, ha, rfl⟩
  · cases h'
  · simp [step, ha]

/-- Every step is some turn's. -/
theorem turnOf_total (s : State) : ∃ τ u, TurnOf s τ u := by
  cases h : s.agenda with
  | nil => exact ⟨.core, s, .inl ⟨h, rfl, rfl⟩⟩
  | cons τ rest => exact ⟨τ, _, .inr ⟨rest, h, rfl⟩⟩

/-- A turn takes nothing but the head of the agenda. -/
theorem TurnOf.eq {s u : State} {τ : Turn} (h : TurnOf s τ u) : u = { s with agenda := u.agenda } := by
  rcases h with ⟨-, -, rfl⟩ | ⟨rest, -, rfl⟩ <;> rfl

theorem TurnOf.of_nil {s : State} (h : s.agenda = []) : TurnOf s .core s := .inl ⟨h, rfl, rfl⟩

/-- Every property that does not look at the agenda passes through a turn. -/
theorem Inv.agenda {s : State} (h : Inv s) (l : List Turn) : Inv { s with agenda := l } :=
  ⟨h.legal, h.inWf, h.outWf, h.inWithin, h.outWithin, h.inLen, h.err,
    fun hb hp => by
      have h' := h.loop hb hp
      exact ⟨⟨h'.image.channels, h'.image.fits⟩, h'.total, h'.left, h'.outpos, h'.posLow, h'.posHigh, h'.run,
        h'.cache, h'.emitted⟩,
    fun hd => by
      have h' := h.done hd
      exact ⟨⟨h'.image.channels, h'.image.fits⟩, h'.complete⟩⟩

theorem TurnOf.inv {s u : State} {τ : Turn} (h : TurnOf s τ u) (hi : Inv s) : Inv u := by
  rw [h.eq]; exact hi.agenda _

/-! ## Opcodes -/

/-- Every opcode answers a next state that differs in PX, RUN, POS and CACHE only. -/
theorem exec_next (i : Instr) (s : State) :
    ∃ t, exec i s = .next t ∧ t = { s with px := t.px, run := t.run, pos := t.pos, cache := t.cache } := by
  cases i <;> exact ⟨_, rfl, rfl⟩

/-- An opcode moves POS by its length. -/
theorem exec_pos {i : Instr} {s t : State} (h : exec i s = .next t) :
    t.pos = s.pos + BitVec.ofNat 32 i.length := by
  cases i <;> (cases h; rfl)

/-- An opcode keeps R27. -/
theorem exec_cacheInv {i : Instr} {s t : State} (h : exec i s = .next t) (hc : CacheInv s.cache) :
    CacheInv t.cache := by
  cases i with
  | index k => cases h; exact hc
  | runShort n => cases h; exact hc
  | runLong n => cases h; exact hc
  | diffSmall dr dg db => cases h; exact cacheWrite_inv hc
  | diffMedium dr dg db => cases h; exact cacheWrite_inv hc
  | diffLarge vr vg vb va => cases h; exact cacheWrite_inv hc
  | literal r g b a => cases h; exact cacheWrite_inv hc

/-- A well-formed opcode leaves RUN alone or sets it to at most 8223. -/
theorem exec_run_le {i : Instr} {s t : State} (h : exec i s = .next t) (hw : i.WellFormed)
    (hr : s.run.toNat ≤ 8223) : t.run.toNat ≤ 8223 := by
  cases i with
  | index k => cases h; exact hr
  | runShort n =>
    cases h
    have : n ≤ 31 := by simpa [Instr.WellFormed, Instr.wellFormed] using hw
    simp only [advancePos, BitVec.toNat_ofNat]; omega
  | runLong n =>
    cases h
    have : 32 ≤ n ∧ n ≤ 8223 := by simpa [Instr.WellFormed, Instr.wellFormed] using hw
    simp only [advancePos, BitVec.toNat_ofNat]; omega
  | diffSmall dr dg db => cases h; exact hr
  | diffMedium dr dg db => cases h; exact hr
  | diffLarge vr vg vb va => cases h; exact hr
  | literal r g b a => cases h; exact hr

/-! ## The end of a pixel step -/

/-- What `finishPixel` answers, and when. -/
theorem finishPixel_next_iff {s t : State} : finishPixel s = .next t ↔
    s.outpos.toNat + (storedBytes s.channels s.px).length ≤ s.params.outCapacity ∧
    t = advanceCounters
      { s with outMem := Memory.writeBytes s.outMem s.outpos.toNat (storedBytes s.channels s.px) } := by
  constructor
  · intro h
    obtain ⟨u, hu, ht⟩ := andThen_eq_next h
    obtain ⟨hc, rfl⟩ := outWriteBytes_ok_iff.1 (outcomeOf_eq_next hu)
    cases ht
    exact ⟨hc, rfl⟩
  · rintro ⟨hc, rfl⟩
    have : emit s = .ok { s with outMem := Memory.writeBytes s.outMem s.outpos.toNat (storedBytes s.channels s.px) } :=
      outWriteBytes_ok_iff.2 ⟨hc, rfl⟩
    simp [finishPixel, this]

/-- The byte of channel c among the stored bytes. -/
theorem storedBytes_get {ch : Byte} (h : ch = 3 ∨ ch = 4) (p : Pixel) {c : Nat} (hc : c < ch.toNat) :
    (storedBytes ch p)[c]? = some (if c = 0 then p.r else if c = 1 then p.g else if c = 2 then p.b else p.a) := by
  rcases h with rfl | rfl
  · have : c = 0 ∨ c = 1 ∨ c = 2 := by
      have : (3 : Byte).toNat = 3 := rfl
      omega
    rcases this with rfl | rfl | rfl <;> rfl
  · have : c = 0 ∨ c = 1 ∨ c = 2 ∨ c = 3 := by
      have : (4 : Byte).toNat = 4 := rfl
      omega
    rcases this with rfl | rfl | rfl | rfl <;> rfl

/-! ## The core's turn -/

/-- What a fetch that finds an opcode has read. -/
theorem fetch_some {s : State} {i : Instr} (h : fetch s = .ok (some i)) :
    ∃ b0 bytes rest, inRead s s.pos.toNat = .ok b0 ∧ s.pos.toNat + opLength b0 ≤ s.inLen.toNat ∧
      inReadBytes s s.pos.toNat (opLength b0) = .ok bytes ∧ decode bytes = .ok (i, rest) := by
  simp only [fetch, bind, Except.bind] at h
  split at h
  · split at h
    · cases h
    · rename_i b0 hb0
      split at h
      · rename_i hl
        split at h
        · cases h
        · rename_i bytes hbytes
          split at h
          · rename_i j rest hd
            cases h
            exact ⟨b0, bytes, rest, hb0, inAvail_iff.1 hl, hbytes, hd⟩
          · cases h
      · cases h
  · cases h

/-- The cases of the core's turn that answers a next state: idle, a header step, a decode error, an opcode, a run
continuation. -/
theorem coreTurn_cases {s t : State} (h : coreTurn s = .next t) :
    (s.status ≠ .busy ∧ t = s) ∨
    (s.status = .busy ∧ s.phase = .header ∧ headerStep s = .next t) ∨
    (s.status = .busy ∧ s.phase = .pixels ∧ s.run = 0 ∧ fetch s = .ok none ∧ t = raise .decodeError s) ∨
    (s.status = .busy ∧ s.phase = .pixels ∧ s.run = 0 ∧
      ∃ i v, fetch s = .ok (some i) ∧ exec i s = .next v ∧ finishPixel v = .next t) ∨
    (s.status = .busy ∧ s.phase = .pixels ∧ s.run ≠ 0 ∧ finishPixel { s with run := s.run - 1 } = .next t) := by
  simp only [coreTurn] at h
  split at h
  · rename_i hs hp; exact .inr (.inl ⟨hs, hp, h⟩)
  · rename_i hs hp
    simp only [pixelStep] at h
    split at h
    · rename_i hr
      simp only [opcodeStep] at h
      split at h
      · cases h
      · rename_i hf; cases h; exact .inr (.inr (.inl ⟨hs, hp, hr, hf, rfl⟩))
      · rename_i i hf
        obtain ⟨v, hv, ht⟩ := andThen_eq_next h
        exact .inr (.inr (.inr (.inl ⟨hs, hp, hr, i, v, hf, hv, ht⟩)))
    · rename_i hr; exact .inr (.inr (.inr (.inr ⟨hs, hp, hr, h⟩)))
  all_goals
    rename_i hs
    cases h
    exact .inl ⟨by simp [hs], rfl⟩

/-- The cases of a header step that answers a next state: a short input, a bad magic, or a header that `acceptHeader`
judges. -/
theorem headerStep_cases {s t : State} (h : headerStep s = .next t) :
    t = raise .invalidFormat s ∨ ∃ hd, 14 ≤ s.inLen.toNat ∧ readHeader s = .ok hd ∧ t = acceptHeader hd s := by
  simp only [headerStep] at h
  split at h
  · rename_i hl
    have hl := inAvail_iff.1 hl
    split at h
    · cases h
    · split at h
      · split at h
        · cases h
        · rename_i hd hhd; cases h; exact .inr ⟨hd, by omega, hhd, rfl⟩
      · cases h; exact .inl rfl
  · cases h; exact .inl rfl

end Sys2Proof.Machine
end

