-- ==== Sys2Proof/Laws/System.lean ====
section
/-! SUPPORT. A system of instances: read after write, the number of instances, and what a step of one can do. -/

namespace Sys2Proof.Machine

/-- spec/00_scope.md R5. -/
theorem System.count_pos (sys : System) : 1 ≤ sys.count := Nat.le_add_left 1 _

/-- The instances are those numbered below `N_INSTANCES`. -/
theorem System.get_isSome_iff (sys : System) (k : Nat) : (sys.get k).isSome = true ↔ k < sys.count := by
  cases k <;> simp [System.get, System.count]

@[simp] theorem System.set_count (sys : System) (t : State) (k : Nat) : (sys.set t k).count = sys.count := by
  cases k <;> simp [System.set, System.count]

theorem System.get_set_self {sys : System} {k : Nat} {s : State} (h : sys.get k = some s) (t : State) :
    (sys.set t k).get k = some t := by
  cases k with
  | zero => rfl
  | succ k =>
    have hk : k < sys.others.length := (List.getElem?_eq_some_iff.1 h).1
    simp [System.set, System.get, hk]

theorem System.get_set_other (sys : System) (t : State) {j k : Nat} (h : j ≠ k) : (sys.set t k).get j = sys.get j := by
  cases k <;> cases j <;> simp_all [System.set, System.get, List.getElem?_set_ne, Ne.symm]

/-- Two writes to different instances in either order. -/
theorem System.set_comm (sys : System) (t u : State) {j k : Nat} (h : j ≠ k) :
    (sys.set t j).set u k = (sys.set u k).set t j := by
  cases k <;> cases j <;> simp_all [System.set, List.set_comm]

/-- A step of an instance that answers a next system: that instance's own step, its result put in its place. -/
theorem System.step_cases {k : Nat} {sys sys' : System} (h : System.step k sys = .next sys') :
    ∃ s t, sys.get k = some s ∧ Sys2Proof.Machine.step s = .next t ∧ sys' = sys.set t k := by
  simp only [System.step] at h
  split at h
  · cases h
  · rename_i s hs
    split at h
    · rename_i t ht; cases h; exact ⟨s, t, hs, ht, rfl⟩
    · cases h
    · cases h

end Sys2Proof.Machine
end

