-- ==== Sys2Proof/Tests/Slice0.lean ====
section
/-! SUPPORT. Smoke tests of well-formedness, words written out from spec/30_encoding.md, one-step tests with the vectors of
spec/95_test_vectors.md, and for every obligation with hypotheses a witness that meets them. -/

open Sys2Proof Sys2Proof.Machine

namespace Sys2Proof.Tests

/-! ## Helpers -/

/-- The state an outcome goes on with, `d` if it stops. -/
def nextOr (d : State) : Host.Outcome State Fault Refusal → State
  | .next t => t
  | .fault _ => d
  | .refused _ => d

/-- The outcome goes on, with a state of which `f` holds. -/
def goesOn (f : State → Bool) : Host.Outcome State Fault Refusal → Bool
  | .next t => f t
  | .fault _ => false
  | .refused _ => false

/-- The outcome is this refusal. -/
def refusedWith (r : Refusal) : Host.Outcome State Fault Refusal → Bool
  | .next _ => false
  | .fault _ => false
  | .refused r' => r = r'

/-- The outcome is this fault. -/
def faultsWith (f : Fault) : Host.Outcome State Fault Refusal → Bool
  | .next _ => false
  | .fault f' => f = f'
  | .refused _ => false

/-- The bytes of OUT from address 0 on. -/
def outBytes (s : State) (n : Nat) : List (Option Byte) := (List.range n).map (Memory.read s.outMem)

/-- A decode begun on this input: BUSY and HEADER. -/
def begun (image : List Byte) : State :=
  { State.reset with
    status := .busy, phase := .header, inLen := BitVec.ofNat 32 image.length, inMem := Memory.writeBytes [] 0 image }

/-- `H(w,h,ch,cs)` of spec/95_test_vectors.md, written out. -/
def header (w h ch cs : Byte) : List Byte := [0x71, 0x6F, 0x69, 0x66, 0, 0, 0, w, 0, 0, 0, h, ch, cs]

/-- The fresh state of spec/95_test_vectors.md section 0: pixel loop start of an image of `w` x 1 pixels. -/
def fresh (w ch : Byte) (body : List Byte) : State :=
  { begun (header w 1 ch 0 ++ body) with
    phase := .pixels, width := w.zeroExtend 32, height := 1, channels := ch, colorspace := 0, pos := 14,
    npix := w.zeroExtend 64, px := ⟨0, 0, 0, 255⟩ }

/-- Scenario A of spec/95_test_vectors.md W5 at its end: a 1x1 RGBA image with the pixel (10,20,30,40). -/
def scenarioA : State :=
  { State.reset with
    status := .done, phase := .pixels, width := 1, height := 1, channels := 4, npix := 1, pixcnt := 1, outpos := 4,
    outMem := [(0, 10), (1, 20), (2, 30), (3, 40)] }

/-- Program P5 of spec/95_test_vectors.md at its end: a 2x1 RGB image. -/
def programP5 : State :=
  { State.reset with
    status := .done, phase := .pixels, width := 2, height := 1, channels := 3, npix := 2, pixcnt := 2, outpos := 6,
    outMem := [(0, 2), (1, 2), (2, 2), (3, 2), (4, 2), (5, 2)] }

/-- The image of spec/95_test_vectors.md W3: 2x1 RGBA, both pixels (10,20,30,40). -/
def imageW3 : State :=
  { State.reset with
    status := .done, phase := .pixels, width := 2, height := 1, channels := 4, npix := 2, pixcnt := 2, outpos := 8,
    outMem := [(0, 10), (1, 20), (2, 30), (3, 40), (4, 10), (5, 20), (6, 30), (7, 40)] }

/-- The host's next turn is `r`. -/
def asks (r : HostReq) (s : State) : State := { s with agenda := [.host r] }

theorem asks_turn (r : HostReq) (s : State) (h : s.agenda = []) : TurnOf (asks r s) (.host r) s :=
  .inr ⟨[], rfl, by cases s; simp_all [asks]⟩

theorem core_turn (s : State) (h : s.agenda = []) : TurnOf s .core s := .inl ⟨h, rfl, rfl⟩

theorem filled_of_check {m : List Host.Cell} {n : Nat} (h : ∀ a < n, (Memory.read m a).isSome = true) :
    Filled m n := fun a ha => Option.isSome_iff_exists.1 (h a ha)

theorem within_of_check {m : List Host.Cell} {cap : Nat} (h : ∀ c ∈ m, c.1 < cap) : Within m cap := by
  intro a v hr
  induction m with
  | nil => simp [Memory.read] at hr
  | cons c rest ih =>
    obtain ⟨k, w⟩ := c
    simp only [Memory.read] at hr
    split at hr
    · rename_i hk; exact hk ▸ h (k, w) (by simp)
    · exact ih (fun c hc => h c (by simp [hc])) hr

/-- The input holds these bytes, checked byte by byte. -/
theorem holds_of_check {s : State} {a : Nat} {bytes : List Byte} (hc : a + bytes.length ≤ s.params.inCapacity)
    (h : ∀ j < bytes.length, Memory.read s.inMem (a + j) = bytes[j]?) : Claims.InputHolds s a bytes :=
  ⟨hc, fun j v hv => by
    have hj : j < bytes.length := by
      rcases Nat.lt_or_ge j bytes.length with h' | h'
      · exact h'
      · simp [List.getElem?_eq_none h'] at hv
    rw [h j hj, hv]⟩

/-! ## Well-formedness refuses an ill-formed term, check by check -/

theorem test_wellFormed_runShort : (Instr.runShort 31).wellFormed = true ∧ (Instr.runShort 32).wellFormed = false := by
  decide
theorem test_wellFormed_runLong :
    (Instr.runLong 31).wellFormed = false ∧ (Instr.runLong 8224).wellFormed = false := by decide
theorem test_wellFormed_diffSmall :
    (Instr.diffSmall (-3) 0 0).wellFormed = false ∧ (Instr.diffSmall 2 0 0).wellFormed = false ∧
    (Instr.diffSmall 0 (-3) 0).wellFormed = false ∧ (Instr.diffSmall 0 2 0).wellFormed = false ∧
    (Instr.diffSmall 0 0 (-3)).wellFormed = false ∧ (Instr.diffSmall 0 0 2).wellFormed = false := by decide
theorem test_wellFormed_diffMedium :
    (Instr.diffMedium (-17) 0 0).wellFormed = false ∧ (Instr.diffMedium 16 0 0).wellFormed = false ∧
    (Instr.diffMedium 0 (-9) 0).wellFormed = false ∧ (Instr.diffMedium 0 8 0).wellFormed = false ∧
    (Instr.diffMedium 0 0 (-9)).wellFormed = false ∧ (Instr.diffMedium 0 0 8).wellFormed = false := by decide
theorem test_wellFormed_diffLarge :
    (Instr.diffLarge 16 0 0 0).wellFormed = false ∧ (Instr.diffLarge 0 (-17) 0 0).wellFormed = false ∧
    (Instr.diffLarge 0 0 16 0).wellFormed = false ∧ (Instr.diffLarge 0 0 0 (-17)).wellFormed = false := by decide

/-! ## Words written out bit by bit from the encoding column of spec/30_encoding.md R84 -/

theorem test_word_index : decode [0b00101000#8] = .ok (.index 40, []) := by decide
theorem test_word_runShort : decode [0b01011111#8] = .ok (.runShort 31, []) := by decide
theorem test_word_runLong : decode [0b01111111#8, 0b11111111#8] = .ok (.runLong 8223, []) := by decide
theorem test_word_diffSmall : decode [0b10011011#8] = .ok (.diffSmall (-1) 0 1, []) := by decide
theorem test_word_diffMedium : decode [0b11000000#8, 0b00001000#8] = .ok (.diffMedium (-16) (-8) 0, []) := by decide
theorem test_word_diffLarge :
    decode [0b11101001#8, 0b01001010#8, 0b01010011#8] = .ok (.diffLarge 2 2 2 3, []) := by decide
theorem test_word_literal : decode [0b11110101#8, 1#8, 2#8] = .ok (.literal none (some 1) none (some 2), []) := by decide

/-- The other way: the assembler gives those bytes. -/
theorem test_encode_words :
    encode (.runLong 8223) = [0x7F, 0xFF] ∧ encode (.diffMedium 5 0 2) = [0xD5, 0x8A] ∧
    encode (.diffLarge 2 2 2 3) = [0xE9, 0x4A, 0x53] ∧
    encode (.literal none (some 0x11) (some 0x22) none) = [0xF6, 0x11, 0x22] := by decide

/-- spec/30_encoding.md R82: missing bytes are the only refusal. -/
theorem test_truncated :
    decode [] = .error .noTagByte ∧ decode [0x60#8] = .error (.truncated .runLong) ∧
    decode [0xE0#8, 0#8] = .error (.truncated .diffLarge) ∧
    decode [0xFF#8, 1#8, 2#8, 3#8] = .error (.truncated .literal) := by decide

/-- A table word: DIFF-large with the first byte lowest. -/
theorem test_tableWord : decodeTableWord 24 0x534AE9 = some (.diffLarge 2 2 2 3) := by decide

/-- spec/30_encoding.md R85. -/
theorem test_pseudoRepeat :
    pseudoRepeat 32 = some (.runShort 31) ∧ pseudoRepeat 33 = some (.runLong 32) ∧ pseudoRepeat 8225 = none := by decide

/-- spec/95_test_vectors.md section 0: the header of a 2x1 RGBA image. -/
theorem test_encodeHeader :
    encodeHeader 2 1 4 0 = [0x71, 0x6F, 0x69, 0x66, 0, 0, 0, 2, 0, 0, 0, 1, 4, 0] := by decide

/-! ## One step each, with the vectors of spec/95_test_vectors.md -/

/-- The fetch word runs as the first instruction: V3.13 (on the pixel reset leaves). -/
theorem test_withFetchWord :
    goesOn (fun t => t.px = ⟨2, 2, 2, 3⟩ ∧ t.pos = 17) (step (State.reset.withFetchWord 24 0x534AE9)) = true := by decide

/-- W3, the second pixel: slot 40 holds (10,20,30,40). -/
theorem test_index :
    goesOn (fun t => t.px = ⟨10, 20, 30, 40⟩ ∧ outBytes t 4 = [some 10, some 20, some 30, some 40])
      (step { fresh 1 4 [0x28] with cache := Cache.zero.set 40 ⟨10, 20, 30, 40⟩ }) = true := by decide
/-- V2.1. -/
theorem test_index_unwritten :
    goesOn (fun t => t.px = ⟨0, 0, 0, 0⟩ ∧ t.pos = 15 ∧ t.status = .done) (step (fresh 1 4 [0x05])) = true := by decide
/-- V2.3: no cache write. -/
theorem test_runShort :
    goesOn (fun t => t.run = 0 ∧ t.cache = Cache.zero ∧ outBytes t 4 = [some 0, some 0, some 0, some 255])
      (step (fresh 1 4 [0x40])) = true := by decide
/-- V2.4, first step. -/
theorem test_runShort_31 :
    goesOn (fun t => t.run = 31 ∧ t.pos = 15 ∧ t.status = .busy) (step (fresh 32 3 [0x5F])) = true := by decide
/-- W9. -/
theorem test_runLong :
    goesOn (fun t => t.run = 37 ∧ t.pos = 16) (step (fresh 40 3 [0x60, 0x05])) = true := by decide
/-- V2.10 with the largest value: the run left over is kept at DONE. -/
theorem test_runLong_max :
    goesOn (fun t => t.run = 8223 ∧ t.status = .done) (step (fresh 1 4 [0x7F, 0xFF])) = true := by decide
/-- V3.1: the sums wrap. -/
theorem test_diffSmall_wraps :
    goesOn (fun t => t.px = ⟨254, 254, 254, 255⟩ ∧ t.cache = Cache.zero.set 1 ⟨254, 254, 254, 255⟩)
      (step (fresh 1 4 [0x80])) = true := by decide
/-- V3.4, the second pixel. -/
theorem test_diffSmall_carry :
    goesOn (fun t => t.px = ⟨0, 1, 1, 255⟩) (step { fresh 1 4 [0xBF] with px := ⟨255, 0, 0, 255⟩ }) = true := by decide
/-- V3.5. -/
theorem test_diffMedium :
    goesOn (fun t => t.px = ⟨240, 248, 248, 255⟩ ∧ t.pos = 16 ∧ t.cache = Cache.zero.set 15 ⟨240, 248, 248, 255⟩)
      (step (fresh 1 4 [0xC0, 0x00])) = true := by decide
/-- V3.8: each delta from its own field. -/
theorem test_diffMedium_fields :
    goesOn (fun t => t.px = ⟨5, 0, 2, 255⟩) (step (fresh 1 4 [0xD5, 0x8A])) = true := by decide
/-- V3.13. -/
theorem test_diffLarge :
    goesOn (fun t => t.px = ⟨2, 2, 2, 3⟩ ∧ t.cache = Cache.zero.set 1 ⟨2, 2, 2, 3⟩ ∧ t.pos = 17)
      (step (fresh 1 4 [0xE9, 0x4A, 0x53])) = true := by decide
/-- V3.15, the second pixel: replaced, not added. -/
theorem test_diffLarge_replaces :
    goesOn (fun t => t.px = ⟨0, 0, 0, 0⟩)
      (step { fresh 1 4 [0xE8, 0x42, 0x10] with px := ⟨100, 100, 100, 100⟩ }) = true := by decide
/-- V4.4: the operands in the order G, B. -/
theorem test_literal_subset :
    goesOn (fun t => t.px = ⟨0, 17, 34, 255⟩ ∧ t.cache = Cache.zero.set 12 ⟨0, 17, 34, 255⟩ ∧ t.pos = 17)
      (step (fresh 1 4 [0xF6, 0x11, 0x22])) = true := by decide
/-- V4.1: no flag set, and still a cache write. -/
theorem test_literal_none :
    goesOn (fun t => t.px = ⟨0, 0, 0, 255⟩ ∧ t.cache = Cache.zero.set 63 ⟨0, 0, 0, 255⟩)
      (step (fresh 1 4 [0xF0])) = true := by decide
/-- V2.11. -/
theorem test_truncated_opcode :
    goesOn (fun t => t.status = .error ∧ t.err = .decodeError) (step (fresh 1 4 [0x60])) = true := by decide
/-- W7. -/
theorem test_no_opcode :
    goesOn (fun t => t.status = .error ∧ t.err = .decodeError) (step (fresh 2 4 [])) = true := by decide
/-- P4, the failing step: no OUT byte of the pixel before it has a value (spec/20_memory.md R67). -/
theorem test_error_takes_out :
    goesOn (fun t => t.err = .decodeError ∧ outBytes t 4 = [none, none, none, none])
      (step { fresh 2 4 [0xC5] with pixcnt := 1, outpos := 4, outMem := [(0, 1), (1, 2), (2, 3), (3, 4)] }) = true := by
  decide

/-! ## The header step -/

/-- W2: `qoiF`. -/
theorem test_magic :
    goesOn (fun t => t.err = .invalidFormat)
      (step (begun ([0x71, 0x6F, 0x69, 0x46, 0, 0, 0, 1, 0, 0, 0, 1, 4, 0, 0x40]))) = true := by decide
/-- V1.11: the channel check precedes the capacity check. -/
theorem test_channels_before_capacity :
    goesOn (fun t => t.err = .invalidFormat)
      (step { begun (header 100 100 5 0) with params := ⟨100, 10⟩ }) = true := by decide
/-- V1.7 and V1.8: the boundary of the capacity check. -/
theorem test_capacity :
    goesOn (fun t => t.err = .outOfCapacity) (step { begun (header 100 100 4 0) with params := ⟨100, 39999⟩ }) = true ∧
    goesOn (fun t => t.status = .busy ∧ t.npix = 10000)
      (step { begun (header 100 100 4 0) with params := ⟨100, 40000⟩ }) = true := by decide
/-- V1.9: an empty image. -/
theorem test_empty_image :
    goesOn (fun t => t.status = .done ∧ t.pos = 14 ∧ t.height = 7) (step (begun (header 0 7 4 0))) = true := by decide
/-- A good header leads to the fresh state that the vectors start from (but for CACHE, which reset leaves the same). -/
theorem test_fresh : goesOn (fun t => t = fresh 2 4 [0x40]) (step (begun (header 2 1 4 0 ++ [0x40]))) = true := by decide

/-! ## The host -/

/-- V1.1. -/
theorem test_reset_reads :
    goesOn (fun t => t.answer = some (.value 0)) (step (asks (.readReg 0) State.reset)) = true := by decide
/-- W6. -/
theorem test_get :
    goesOn (fun t => t.answer = some (.pixel ⟨10, 20, 30, 40⟩)) (step (asks (.getPixel 0 0) scenarioA)) = true ∧
    goesOn (fun t => t.answer = some .outOfRange) (step (asks (.getPixel 1 0) scenarioA)) = true ∧
    goesOn (fun t => t.answer = some .outOfRange) (step (asks (.getPixel 0 1) scenarioA)) = true := by decide
/-- V5.3. -/
theorem test_set_three_channels :
    goesOn (fun t => outBytes t 6 = [some 2, some 2, some 2, some 7, some 8, some 9])
      (step (asks (.setPixel 1 0 ⟨7, 8, 9, 10⟩) programP5)) = true := by decide
/-- P5: A is 255. -/
theorem test_get_three_channels :
    goesOn (fun t => t.answer = some (.pixel ⟨2, 2, 2, 255⟩)) (step (asks (.getPixel 1 0) programP5)) = true := by decide
/-- V1.16 at the smallest capacity, and V1.19. -/
theorem test_refused :
    refusedWith (.inLenBeyondCapacity 15) (step (asks (.writeReg 3 15) (State.resetWith ⟨14, 0⟩))) = true ∧
    refusedWith (.unknownRegister 8) (step (asks (.readReg 8) State.reset)) = true ∧
    refusedWith .rasterPortNotDone (step (asks (.getPixel 0 0) State.reset)) = true := by decide
/-- spec/10_state.md R35. -/
theorem test_result_register_faults :
    faultsWith (.resultRegisterNoValue 4) (step (asks (.readReg 4) State.reset)) = true := by decide

/-! ## Witnesses: for every obligation with hypotheses, inputs that meet them all -/

theorem inv_of_checks {s : State} (legal : s.params.Legal) (inWf : Memory.wf s.inMem) (outWf : Memory.wf s.outMem)
    (inIn : ∀ c ∈ s.inMem, c.1 < s.params.inCapacity) (outIn : ∀ c ∈ s.outMem, c.1 < s.params.outCapacity)
    (inLen : s.inLen.toNat ≤ s.params.inCapacity) (err : s.err = .none ∧ s.status ≠ .error)
    (loop : s.status = .busy → s.phase = .pixels → LoopInv s) (done : s.status = .done → DoneInv s) : Inv s :=
  ⟨legal, inWf, outWf, within_of_check inIn, within_of_check outIn, inLen,
    by simp [err.1, err.2], loop, done⟩

theorem inv_reset : Inv State.reset :=
  inv_of_checks (by decide) (by decide) (by decide) (by decide) (by decide) (by decide) (by decide)
    (fun h => by cases h) (fun h => by cases h)

theorem done_scenarioA : DoneInv scenarioA :=
  ⟨⟨by decide, by decide⟩, filled_of_check (by decide)⟩

theorem inv_scenarioA : Inv scenarioA :=
  inv_of_checks (by decide) (by decide) (by decide) (by decide) (by decide) (by decide) (by decide)
    (fun h => by cases h) (fun _ => done_scenarioA)

theorem done_programP5 : DoneInv programP5 :=
  ⟨⟨by decide, by decide⟩, filled_of_check (by decide)⟩

theorem inv_programP5 : Inv programP5 :=
  inv_of_checks (by decide) (by decide) (by decide) (by decide) (by decide) (by decide) (by decide)
    (fun h => by cases h) (fun _ => done_programP5)

theorem done_imageW3 : DoneInv imageW3 :=
  ⟨⟨by decide, by decide⟩, filled_of_check (by decide)⟩

theorem inv_imageW3 : Inv imageW3 :=
  inv_of_checks (by decide) (by decide) (by decide) (by decide) (by decide) (by decide) (by decide)
    (fun h => by cases h) (fun _ => done_imageW3)

/-- An input for a decode of one pixel, loaded and begun. -/
theorem inv_begun : Inv (begun (header 1 1 4 0 ++ [0x40])) :=
  inv_of_checks (by decide) (by decide) (by decide) (by decide) (by decide) (by decide) (by decide)
    (fun _ h => by cases h) (fun h => by cases h)

theorem loaded_begun : Claims.InputLoaded (begun (header 1 1 4 0 ++ [0x40])) := filled_of_check (by decide)

/-- The fresh state meets the invariant, whatever run opcode stands first. -/
theorem inv_fresh_runShort : Inv (fresh 32 3 [0x5F]) :=
  inv_of_checks (by decide) (by decide) (by decide) (by decide) (by decide) (by decide) (by decide)
    (fun _ _ => ⟨⟨by decide, by decide⟩, by decide, by decide, by decide, by decide, by decide, by decide, cacheZero_inv,
      filled_of_check (by decide)⟩)
    (fun h => by cases h)

theorem inv_fresh_runLong : Inv (fresh 33 4 [0x60, 0x00]) :=
  inv_of_checks (by decide) (by decide) (by decide) (by decide) (by decide) (by decide) (by decide)
    (fun _ _ => ⟨⟨by decide, by decide⟩, by decide, by decide, by decide, by decide, by decide, by decide, cacheZero_inv,
      filled_of_check (by decide)⟩)
    (fun h => by cases h)

theorem inv_fresh_literal : Inv (fresh 2 4 [0xF8, 0x7B]) :=
  inv_of_checks (by decide) (by decide) (by decide) (by decide) (by decide) (by decide) (by decide)
    (fun _ _ => ⟨⟨by decide, by decide⟩, by decide, by decide, by decide, by decide, by decide, by decide, cacheZero_inv,
      filled_of_check (by decide)⟩)
    (fun h => by cases h)

/-! ### Encoding -/

/-- At the ends of every operand range. -/
theorem witness_DecodeOfEncodeIsTheInstruction :
    (Instr.index 63).WellFormed ∧ (Instr.runShort 31).WellFormed ∧ (Instr.runLong 32).WellFormed ∧
    (Instr.runLong 8223).WellFormed ∧ (Instr.diffSmall (-2) 1 (-2)).WellFormed ∧
    (Instr.diffMedium (-16) 7 (-8)).WellFormed ∧ (Instr.diffMedium 15 (-8) 7).WellFormed ∧
    (Instr.diffLarge (-16) 15 (-16) 15).WellFormed ∧ (Instr.literal none (some 255) none (some 0)).WellFormed := by decide

theorem witness_EncodeOfDecodeIsTheBytes :
    decode [0xF6, 0x11, 0x22, 0x40] = .ok (.literal none (some 0x11) (some 0x22) none, [0x40]) := by decide

/-- Both ends of every range. -/
theorem witness_TagRangesPartitionTheBytes :
    decodeTag 0x00 = .index ∧ decodeTag 0x3F = .index ∧ decodeTag 0x40 = .runShort ∧ decodeTag 0x5F = .runShort ∧
    decodeTag 0x60 = .runLong ∧ decodeTag 0x7F = .runLong ∧ decodeTag 0x80 = .diffSmall ∧ decodeTag 0xBF = .diffSmall ∧
    decodeTag 0xC0 = .diffMedium ∧ decodeTag 0xDF = .diffMedium ∧ decodeTag 0xE0 = .diffLarge ∧
    decodeTag 0xEF = .diffLarge ∧ decodeTag 0xF0 = .literal ∧ decodeTag 0xFF = .literal := by decide

/-- The longest opcode, one byte short. -/
theorem witness_DecodeRefusesOnlyTruncation : [0xFF#8, 1, 2, 3].length < opLength 0xFF := by decide

theorem witness_TagByteGivesTheLength :
    decode (0xFF :: [1, 2, 3, 4, 5]) = .ok (.literal (some 1) (some 2) (some 3) (some 4), [5]) := by decide

/-- Every clause at both ends of its range. -/
theorem witness_OperandsOfShortOpcodes :
    ((0x00#8).toNat ≤ 0x3F ∧ (0x3F#8).toNat ≤ 0x3F) ∧
    (0x40 ≤ (0x40#8).toNat ∧ (0x5F#8).toNat ≤ 0x5F) ∧ (0x60 ≤ (0x60#8).toNat ∧ (0x7F#8).toNat ≤ 0x7F) ∧
    (0x80 ≤ (0x80#8).toNat ∧ (0xBF#8).toNat ≤ 0xBF) ∧ (0xC0 ≤ (0xC0#8).toNat ∧ (0xDF#8).toNat ≤ 0xDF) := by decide

theorem witness_OperandsOfDiffLarge :
    (0xE0 ≤ (0xE0#8).toNat ∧ (0xE0#8).toNat ≤ 0xEF) ∧ (0xE0 ≤ (0xEF#8).toNat ∧ (0xEF#8).toNat ≤ 0xEF) := by decide

theorem witness_OperandsOfLiteral : 0xF0 ≤ (0xF0#8).toNat ∧ 0xF0 ≤ (0xFF#8).toNat := by decide

/-! ### Opcodes -/

theorem witness_RunShortSetsTheCounter : 0 ≤ 31 ∧ 31 ≤ 31 := by decide
theorem witness_RunLongSetsTheCounter : (32 ≤ 32 ∧ 32 ≤ 8223) ∧ (32 ≤ 8223 ∧ 8223 ≤ 8223) := by decide

/-- Every opcode goes on, also with operands that no encoding holds; one of them writes the cache, one does not. -/
theorem witness_OpcodesKeepWhatTheyDoNotWrite :
    (∃ t, exec (.diffSmall 1 1 1) (fresh 1 4 []) = .next t) ∧ (∃ t, exec (.runLong 8223) (fresh 1 4 []) = .next t) ∧
    Claims.writesCache (.diffSmall 1 1 1) = true ∧ Claims.writesCache (.index 5) = false := ⟨⟨_, rfl⟩, ⟨_, rfl⟩, rfl, rfl⟩

/-- RGBA (10,20,30,40) writes slot 40; an INDEX, a run and a DIFF-small that writes slot 41 follow. -/
theorem witness_IndexAfterACacheWriteGivesThePixel :
    ∃ t u, Claims.writesCache (.literal (some 10) (some 20) (some 30) (some 40)) = true ∧
      exec (.literal (some 10) (some 20) (some 30) (some 40)) (fresh 2 4 []) = .next t ∧
      Claims.slotNumber t.px = 40 ∧
      Claims.SparesSlot (Claims.slotNumber t.px) [.runShort 0, .diffSmall 1 1 1, .index 5] t ∧
      Claims.execAll [.runShort 0, .diffSmall 1 1 1, .index 5] t = .next u := by
  refine ⟨_, _, rfl, rfl, by decide, ?_, rfl⟩
  intro t1 h1
  cases h1
  refine ⟨by decide, ?_⟩
  intro t2 h2
  cases h2
  refine ⟨fun _ => by decide, ?_⟩
  intro t3 h3
  cases h3
  exact ⟨fun h => (by cases h), trivial⟩

theorem witness_DeltasCompose :
    ∀ i ∈ [Instr.diffSmall (-2) 1 0, Instr.diffMedium 15 (-8) 7], (Claims.deltas i).isSome = true := by decide

/-! ### The pixel step -/

/-- DIFF-medium as the last two bytes of the input, and OUT just large enough. -/
theorem witness_StepRunsTheDecodedOpcode :
    let s : State := { fresh 1 4 [0xD5, 0x8A] with params := ⟨16, 4⟩ }
    TurnOf s .core s ∧ Claims.InLoop s ∧ s.run = 0 ∧ decode [0xD5, 0x8A] = .ok (.diffMedium 5 0 2, []) ∧
    Claims.InputHolds s s.pos.toNat [0xD5, 0x8A] ∧ s.pos.toNat + [0xD5#8, 0x8A].length ≤ s.inLen.toNat ∧
    Claims.Emittable s :=
  ⟨core_turn _ rfl, ⟨rfl, rfl⟩, rfl, by decide, holds_of_check (by decide) (by decide), by decide, by decide, by decide⟩

/-- The last continuation of a run, past the end of the input; the core's turn stands in the agenda. -/
theorem witness_RunContinuationRepeatsThePixel :
    let u : State := { fresh 2 3 [] with run := 1, params := ⟨14, 3⟩ }
    TurnOf { u with agenda := [.core] } .core u ∧ Claims.InLoop u ∧ u.run ≠ 0 ∧ Claims.Emittable u :=
  ⟨.inr ⟨[], rfl, rfl⟩, ⟨rfl, rfl⟩, by decide, by decide, by decide⟩

theorem witness_MissingTagByteIsADecodeError :
    TurnOf (fresh 2 4 []) .core (fresh 2 4 []) ∧ Claims.InLoop (fresh 2 4 []) ∧ (fresh 2 4 []).run = 0 ∧
    (fresh 2 4 []).inLen.toNat ≤ (fresh 2 4 []).pos.toNat := ⟨core_turn _ rfl, ⟨rfl, rfl⟩, rfl, by decide⟩

/-- V4.7: LITERAL with one operand byte missing. -/
theorem witness_TruncatedOpcodeIsADecodeError :
    let s := fresh 1 4 [0xFF, 1, 2, 3]
    TurnOf s .core s ∧ Claims.InLoop s ∧ s.run = 0 ∧ Claims.InputHolds s s.pos.toNat [0xFF] ∧
    s.pos.toNat < s.inLen.toNat ∧ s.inLen.toNat < s.pos.toNat + opLength 0xFF :=
  ⟨core_turn _ rfl, ⟨rfl, rfl⟩, rfl, holds_of_check (by decide) (by decide), by decide, by decide⟩

/-- The last pixel by an opcode, and a pixel by a continuation. -/
theorem witness_EveryPixelStepEmitsOnePixel :
    (let s := fresh 1 3 [0xBF]
     TurnOf s .core s ∧ Claims.InLoop s ∧ (s.channels = 3 ∨ s.channels = 4) ∧
     ∃ t, step s = .next t ∧ t.status ≠ .error ∧ s.pixcnt + 1 = s.npix) ∧
    (let s : State := { fresh 2 4 [] with run := 8223 }
     TurnOf s .core s ∧ Claims.InLoop s ∧ (s.channels = 3 ∨ s.channels = 4) ∧
     ∃ t, step s = .next t ∧ t.status ≠ .error ∧ s.run ≠ 0) :=
  ⟨⟨core_turn _ rfl, ⟨rfl, rfl⟩, by decide, nextOr State.reset (step (fresh 1 3 [0xBF])), by rfl, by decide, by decide⟩,
   ⟨core_turn _ rfl, ⟨rfl, rfl⟩, by decide, nextOr State.reset (step { fresh 2 4 [] with run := 8223 }), by rfl, by decide,
    by decide⟩⟩

theorem witness_CoreIsIdleUnlessBusy :
    (TurnOf State.reset .core State.reset ∧ State.reset.status ≠ .busy) ∧
    (TurnOf scenarioA .core scenarioA ∧ scenarioA.status ≠ .busy) :=
  ⟨⟨core_turn _ rfl, by decide⟩, ⟨core_turn _ rfl, by decide⟩⟩

/-- V2.4 and V2.6: runs that fill the image exactly, k at its largest. -/
theorem witness_RunOpcodeEmitsItsRun :
    (let s := fresh 32 3 [0x5F]
     Inv s ∧ s.agenda = [] ∧ Claims.InLoop s ∧ s.run = 0 ∧ decode [0x5F] = .ok (.runShort 31, []) ∧
     Claims.InputHolds s s.pos.toNat [0x5F] ∧ s.pos.toNat + [0x5F#8].length ≤ s.inLen.toNat ∧ 31 ≤ 31 ∧
     s.pixcnt.toNat + 31 + 1 ≤ s.npix.toNat) ∧
    (let s := fresh 33 4 [0x60, 0x00]
     Inv s ∧ s.agenda = [] ∧ Claims.InLoop s ∧ s.run = 0 ∧ decode [0x60, 0x00] = .ok (.runLong 32, []) ∧
     Claims.InputHolds s s.pos.toNat [0x60, 0x00] ∧ s.pos.toNat + [0x60#8, 0x00].length ≤ s.inLen.toNat ∧ 32 ≤ 32 ∧
     s.pixcnt.toNat + 32 + 1 ≤ s.npix.toNat) :=
  ⟨⟨inv_fresh_runShort, rfl, ⟨rfl, rfl⟩, rfl, by decide, holds_of_check (by decide) (by decide), by decide, by decide,
      by decide⟩,
   ⟨inv_fresh_runLong, rfl, ⟨rfl, rfl⟩, rfl, by decide, holds_of_check (by decide) (by decide), by decide, by decide,
      by decide⟩⟩

/-- V3.13 beside V3.14. -/
theorem witness_ThreeChannelStepAgreesWithFour :
    let s4 := fresh 1 4 [0xE9, 0x4A, 0x53]
    let s3 := fresh 1 3 [0xE9, 0x4A, 0x53]
    let s3' : State := { s3 with inMem := s4.inMem }
    Claims.SameButOut s4 s3' ∧ s4.channels = 4 ∧ s3'.channels = 3 ∧ s4.agenda = [] ∧ Claims.InLoop s4 ∧
    Claims.Emittable s3' ∧ step s4 = .next (nextOr s4 (step s4)) ∧ (nextOr s4 (step s4)).status ≠ .error :=
  ⟨by rfl, rfl, rfl, rfl, ⟨rfl, rfl⟩, ⟨by decide, by decide⟩, by rfl, by decide⟩

/-- V1.10, for the core's turn, GET and SET. -/
theorem witness_ColorspaceIsNotInterpreted :
    (let s := begun (header 1 1 4 0 ++ [0x40])
     let s' : State := { s with inMem := Memory.write s.inMem 13 0x55 }
     Inv s ∧ Claims.SameButColorspace s s' ∧ TurnOf s .core s ∧ step s = .next (nextOr s (step s))) ∧
    (let s := asks (.getPixel 0 0) scenarioA
     let s' : State := { s with colorspace := 0x55 }
     Inv s ∧ Claims.SameButColorspace s s' ∧ TurnOf s (.host (.getPixel 0 0)) scenarioA ∧
     step s = .next (nextOr s (step s))) ∧
    (let s := asks (.setPixel 0 0 ⟨1, 2, 3, 4⟩) scenarioA
     let s' : State := { s with colorspace := 0x55 }
     Inv s ∧ Claims.SameButColorspace s s' ∧ TurnOf s (.host (.setPixel 0 0 ⟨1, 2, 3, 4⟩)) scenarioA ∧
     step s = .next (nextOr s (step s))) :=
  ⟨⟨inv_begun, ⟨rfl, fun _ ha => Memory.read_write_other _ _ (Ne.symm ha), by decide⟩, core_turn _ rfl, by rfl⟩,
   ⟨inv_scenarioA.agenda _, ⟨rfl, fun _ _ => rfl, rfl⟩, asks_turn _ _ rfl, by rfl⟩,
   ⟨inv_scenarioA.agenda _, ⟨rfl, fun _ _ => rfl, rfl⟩, asks_turn _ _ rfl, by rfl⟩⟩

/-! ### START and the header step -/

/-- START with ignored bits set, from IDLE and from DONE. -/
theorem witness_StartBeginsADecode :
    (TurnOf (asks (.writeReg 2 1) State.reset) (.host (.writeReg 2 1)) State.reset ∧ (1#32).toNat % 2 = 1 ∧
      State.reset.status ≠ .busy) ∧
    (TurnOf (asks (.writeReg 2 0xFFFFFFFF) scenarioA) (.host (.writeReg 2 0xFFFFFFFF)) scenarioA ∧
      (0xFFFFFFFF#32).toNat % 2 = 1 ∧ scenarioA.status ≠ .busy) :=
  ⟨⟨asks_turn _ _ rfl, by decide, by decide⟩, ⟨asks_turn _ _ rfl, by decide, by decide⟩⟩

/-- V1.3: 13 bytes with a good magic. -/
theorem witness_ShortInputIsInvalidFormat :
    let s := begun [0x71, 0x6F, 0x69, 0x66, 0, 0, 0, 1, 0, 0, 0, 1, 4]
    TurnOf s .core s ∧ Claims.InHeader s ∧ s.inLen.toNat < 14 := ⟨core_turn _ rfl, ⟨rfl, rfl⟩, by decide⟩

/-- W2: the last magic byte wrong. -/
theorem witness_BadMagicIsInvalidFormat :
    let s := begun [0x71, 0x6F, 0x69, 0x46, 0, 0, 0, 1, 0, 0, 0, 1, 4, 0]
    TurnOf s .core s ∧ Claims.InHeader s ∧ 14 ≤ s.inLen.toNat ∧ Claims.InputHolds s 0 [0x71, 0x6F, 0x69, 0x46] ∧
    ¬((0x71#8) = 0x71 ∧ (0x6F#8) = 0x6F ∧ (0x69#8) = 0x69 ∧ (0x46#8) = 0x66) :=
  ⟨core_turn _ rfl, ⟨rfl, rfl⟩, by decide, holds_of_check (by decide) (by decide), by decide⟩

/-- Channel counts 2 and 5, next to the legal ones; the second where the image would not fit either (V1.11). -/
theorem witness_BadChannelCountIsInvalidFormat :
    (let s := begun (header 1 1 2 0)
     TurnOf s .core s ∧ Claims.InHeader s ∧ 14 ≤ s.inLen.toNat ∧
     Claims.InputHolds s 0 [0x71, 0x6F, 0x69, 0x66, 0, 0, 0, 1, 0, 0, 0, 1, 2, 0] ∧
     (2#8).toNat ≠ 3 ∧ (2#8).toNat ≠ 4) ∧
    (let s : State := { begun (header 100 100 5 0) with params := ⟨14, 10⟩ }
     TurnOf s .core s ∧ Claims.InHeader s ∧ 14 ≤ s.inLen.toNat ∧
     Claims.InputHolds s 0 [0x71, 0x6F, 0x69, 0x66, 0, 0, 0, 100, 0, 0, 0, 100, 5, 0] ∧
     (5#8).toNat ≠ 3 ∧ (5#8).toNat ≠ 4) :=
  ⟨⟨core_turn _ rfl, ⟨rfl, rfl⟩, by decide, holds_of_check (by decide) (by decide), by decide, by decide⟩,
   ⟨core_turn _ rfl, ⟨rfl, rfl⟩, by decide, holds_of_check (by decide) (by decide), by decide, by decide⟩⟩

/-- V1.7: one byte of OUT too few. -/
theorem witness_ImageLargerThanOutIsOutOfCapacity :
    let s : State := { begun (header 100 100 4 0) with params := ⟨14, 39999⟩ }
    TurnOf s .core s ∧ Claims.InHeader s ∧ 14 ≤ s.inLen.toNat ∧
    Claims.InputHolds s 0 [0x71, 0x6F, 0x69, 0x66, 0, 0, 0, 100, 0, 0, 0, 100, 4, 0] ∧
    ((4#8).toNat = 3 ∨ (4#8).toNat = 4) ∧
    s.params.outCapacity < Claims.beValue 0 0 0 100 * Claims.beValue 0 0 0 100 * (4#8).toNat :=
  ⟨core_turn _ rfl, ⟨rfl, rfl⟩, by decide, holds_of_check (by decide) (by decide), by decide, by decide⟩

/-- V1.8: OUT just large enough; and V1.9: an empty image with no OUT at all. -/
theorem witness_GoodHeaderStartsThePixelLoop :
    (let s : State := { begun (header 100 100 4 0) with params := ⟨14, 40000⟩ }
     TurnOf s .core s ∧ Claims.InHeader s ∧ 14 ≤ s.inLen.toNat ∧
     Claims.InputHolds s 0 [0x71, 0x6F, 0x69, 0x66, 0, 0, 0, 100, 0, 0, 0, 100, 4, 0] ∧
     ((4#8).toNat = 3 ∨ (4#8).toNat = 4) ∧
     Claims.beValue 0 0 0 100 * Claims.beValue 0 0 0 100 * (4#8).toNat ≤ s.params.outCapacity) ∧
    (let s : State := { begun (header 0 7 3 0) with params := ⟨14, 0⟩ }
     TurnOf s .core s ∧ Claims.InHeader s ∧ 14 ≤ s.inLen.toNat ∧
     Claims.InputHolds s 0 [0x71, 0x6F, 0x69, 0x66, 0, 0, 0, 0, 0, 0, 0, 7, 3, 0] ∧
     ((3#8).toNat = 3 ∨ (3#8).toNat = 4) ∧
     Claims.beValue 0 0 0 0 * Claims.beValue 0 0 0 7 * (3#8).toNat ≤ s.params.outCapacity) :=
  ⟨⟨core_turn _ rfl, ⟨rfl, rfl⟩, by decide, holds_of_check (by decide) (by decide), by decide, by decide⟩,
   ⟨core_turn _ rfl, ⟨rfl, rfl⟩, by decide, holds_of_check (by decide) (by decide), by decide, by decide⟩⟩

/-! ### The host -/

/-- The first and the last of the registers that always read, in IDLE and in BUSY. -/
theorem witness_ControlRegistersAlwaysRead :
    (TurnOf (asks (.readReg 0) State.reset) (.host (.readReg 0)) State.reset ∧ 0 ≤ 3) ∧
    (TurnOf (asks (.readReg 3) (begun [])) (.host (.readReg 3)) (begun []) ∧ 3 ≤ 3) :=
  ⟨⟨asks_turn _ _ rfl, by decide⟩, ⟨asks_turn _ _ rfl, by decide⟩⟩

theorem witness_ResultRegistersReadWhenDone :
    (TurnOf (asks (.readReg 4) scenarioA) (.host (.readReg 4)) scenarioA ∧ 4 ≤ 4 ∧ 4 ≤ 7 ∧ scenarioA.status = .done) ∧
    (TurnOf (asks (.readReg 7) scenarioA) (.host (.readReg 7)) scenarioA ∧ 4 ≤ 7 ∧ 7 ≤ 7 ∧ scenarioA.status = .done) :=
  ⟨⟨asks_turn _ _ rfl, by decide, by decide, rfl⟩, ⟨asks_turn _ _ rfl, by decide, by decide, rfl⟩⟩

/-- Register 4 while BUSY, register 7 in IDLE, register 8. -/
theorem witness_RegisterAccessesThatStop :
    (TurnOf (asks (.readReg 4) (begun [])) (.host (.readReg 4)) (begun []) ∧ 4 ≤ 4 ∧ 4 ≤ 7 ∧
      (begun []).status = .busy) ∧
    (TurnOf (asks (.readReg 7) State.reset) (.host (.readReg 7)) State.reset ∧ 4 ≤ 7 ∧ 7 ≤ 7 ∧
      (State.reset.status = .idle ∨ State.reset.status = .error)) ∧
    (TurnOf (asks (.readReg 8) State.reset) (.host (.readReg 8)) State.reset ∧ 8 ≤ 8) ∧
    (TurnOf (asks (.writeReg 8 0) State.reset) (.host (.writeReg 8 0)) State.reset ∧ 8 ≤ 8) :=
  ⟨⟨asks_turn _ _ rfl, by decide, by decide, rfl⟩, ⟨asks_turn _ _ rfl, by decide, by decide, .inl rfl⟩,
   ⟨asks_turn _ _ rfl, by decide⟩, ⟨asks_turn _ _ rfl, by decide⟩⟩

/-- V1.17, V1.18, and register 7. -/
theorem witness_WritesWithoutEffect :
    TurnOf (asks (.writeReg 0 5) State.reset) (.host (.writeReg 0 5)) State.reset ∧
    TurnOf (asks (.writeReg 7 5) (begun [])) (.host (.writeReg 7 5)) (begun []) ∧ (4 ≤ 7 ∧ 7 ≤ 7) ∧
    TurnOf (asks (.writeReg 2 2) State.reset) (.host (.writeReg 2 2)) State.reset ∧ (2#32).toNat % 2 = 0 :=
  ⟨asks_turn _ _ rfl, asks_turn _ _ rfl, by decide, asks_turn _ _ rfl, by decide⟩

/-- The last byte of the smallest IN, and the largest IN_LEN. -/
theorem witness_HostLoadsTheInput :
    let u := State.resetWith ⟨14, 0⟩
    u.status ≠ .busy ∧
    (TurnOf (asks (.inWrite 13 7) u) (.host (.inWrite 13 7)) u ∧ 13 < u.params.inCapacity) ∧
    (TurnOf (asks (.writeReg 3 14) u) (.host (.writeReg 3 14)) u ∧ (14#32).toNat ≤ u.params.inCapacity) :=
  ⟨by decide, ⟨asks_turn _ _ rfl, by decide⟩, ⟨asks_turn _ _ rfl, by decide⟩⟩

theorem witness_InputWritesThatAreRefused :
    (let u := begun []
     u.status = .busy ∧ (TurnOf (asks (.writeReg 2 1) u) (.host (.writeReg 2 1)) u ∧ (1#32).toNat % 2 = 1) ∧
     TurnOf (asks (.inWrite 0 7) u) (.host (.inWrite 0 7)) u ∧
     TurnOf (asks (.writeReg 3 0) u) (.host (.writeReg 3 0)) u) ∧
    (let u := State.resetWith ⟨14, 0⟩
     u.status ≠ .busy ∧ (TurnOf (asks (.inWrite 14 7) u) (.host (.inWrite 14 7)) u ∧ u.params.inCapacity ≤ 14) ∧
     (TurnOf (asks (.writeReg 3 15) u) (.host (.writeReg 3 15)) u ∧ u.params.inCapacity < (15#32).toNat)) :=
  ⟨⟨rfl, ⟨asks_turn _ _ rfl, by decide⟩, asks_turn _ _ rfl, asks_turn _ _ rfl⟩,
   ⟨by decide, ⟨asks_turn _ _ rfl, by decide⟩, ⟨asks_turn _ _ rfl, by decide⟩⟩⟩

/-- The last pixel of a 3-channel image, and the only one of a 4-channel image. -/
theorem witness_GetAnswersTheStoredPixel :
    (TurnOf (asks (.getPixel 1 0) programP5) (.host (.getPixel 1 0)) programP5 ∧ programP5.status = .done ∧
      DoneInv programP5 ∧ (1#32).toNat < programP5.width.toNat ∧ (0#32).toNat < programP5.height.toNat) ∧
    (TurnOf (asks (.getPixel 0 0) scenarioA) (.host (.getPixel 0 0)) scenarioA ∧ scenarioA.status = .done ∧
      DoneInv scenarioA ∧ (0#32).toNat < scenarioA.width.toNat ∧ (0#32).toNat < scenarioA.height.toNat) :=
  ⟨⟨asks_turn _ _ rfl, rfl, done_programP5, by decide, by decide⟩,
   ⟨asks_turn _ _ rfl, rfl, done_scenarioA, by decide, by decide⟩⟩

theorem witness_SetStoresThePixel :
    (TurnOf (asks (.setPixel 1 0 ⟨7, 8, 9, 10⟩) programP5) (.host (.setPixel 1 0 ⟨7, 8, 9, 10⟩)) programP5 ∧
      programP5.status = .done ∧ ImageInv programP5 ∧ (1#32).toNat < programP5.width.toNat ∧
      (0#32).toNat < programP5.height.toNat) ∧
    (TurnOf (asks (.setPixel 0 0 ⟨1, 2, 3, 4⟩) scenarioA) (.host (.setPixel 0 0 ⟨1, 2, 3, 4⟩)) scenarioA ∧
      scenarioA.status = .done ∧ ImageInv scenarioA ∧ (0#32).toNat < scenarioA.width.toNat ∧
      (0#32).toNat < scenarioA.height.toNat) :=
  ⟨⟨asks_turn _ _ rfl, rfl, done_programP5.image, by decide, by decide⟩,
   ⟨asks_turn _ _ rfl, rfl, done_scenarioA.image, by decide, by decide⟩⟩

/-- x = WIDTH for GET, y = HEIGHT for SET. -/
theorem witness_OutOfRangeAccessHasNoEffect :
    (scenarioA.status = .done ∧ scenarioA.width.toNat ≤ (1#32).toNat ∧
      TurnOf (asks (.getPixel 1 0) scenarioA) (.host (.getPixel 1 0)) scenarioA) ∧
    (scenarioA.status = .done ∧ scenarioA.height.toNat ≤ (1#32).toNat ∧
      TurnOf (asks (.setPixel 0 1 ⟨9, 9, 9, 9⟩) scenarioA) (.host (.setPixel 0 1 ⟨9, 9, 9, 9⟩)) scenarioA) :=
  ⟨⟨rfl, by decide, asks_turn _ _ rfl⟩, ⟨rfl, by decide, asks_turn _ _ rfl⟩⟩

theorem witness_RasterPortIsRefusedUnlessDone :
    ((begun []).status ≠ .done ∧ TurnOf (asks (.getPixel 0 0) (begun [])) (.host (.getPixel 0 0)) (begun [])) ∧
    (State.reset.status ≠ .done ∧
      TurnOf (asks (.setPixel 0 0 ⟨9, 9, 9, 9⟩) State.reset) (.host (.setPixel 0 0 ⟨9, 9, 9, 9⟩)) State.reset) :=
  ⟨⟨by decide, asks_turn _ _ rfl⟩, ⟨by decide, asks_turn _ _ rfl⟩⟩

/-- The same pixel, and its neighbour, on an image of 3 channels and on one of 4. -/
theorem witness_GetAfterSet :
    let same : State := { programP5 with agenda := [.host (.setPixel 1 0 ⟨7, 8, 9, 10⟩), .host (.getPixel 1 0)] }
    let other : State := { programP5 with agenda := [.host (.setPixel 1 0 ⟨7, 8, 9, 10⟩), .host (.getPixel 0 0)] }
    (same.status = .done ∧ DoneInv same ∧ (1#32).toNat < same.width.toNat ∧ (0#32).toNat < same.height.toNat) ∧
    let same4 : State := { imageW3 with agenda := [.host (.setPixel 1 0 ⟨7, 8, 9, 10⟩), .host (.getPixel 1 0)] }
    let other4 : State := { imageW3 with agenda := [.host (.setPixel 1 0 ⟨7, 8, 9, 10⟩), .host (.getPixel 0 0)] }
    (other.status = .done ∧ DoneInv other ∧ (0#32).toNat < other.width.toNat ∧ (0#32) ≠ 1#32) ∧
    (same4.status = .done ∧ DoneInv same4 ∧ (1#32).toNat < same4.width.toNat ∧ (0#32).toNat < same4.height.toNat ∧
      same4.channels = 4) ∧
    (other4.status = .done ∧ DoneInv other4 ∧ (0#32).toNat < other4.width.toNat ∧ (0#32) ≠ 1#32) :=
  ⟨⟨rfl, (inv_programP5.agenda _).done rfl, by decide, by decide⟩,
   ⟨rfl, (inv_programP5.agenda _).done rfl, by decide, by decide⟩,
   ⟨rfl, (inv_imageW3.agenda _).done rfl, by decide, by decide, rfl⟩,
   ⟨rfl, (inv_imageW3.agenda _).done rfl, by decide, by decide⟩⟩

theorem witness_ResetValues :
    TurnOf (asks .powerOnReset (begun [])) (.host .powerOnReset) (begun []) := asks_turn _ _ rfl

/-- Scenario A, at the smallest IN that holds it. -/
theorem witness_BootSequenceStartsTheDecode :
    let image := header 1 1 4 0 ++ [0xFF, 10, 20, 30, 40]
    let s : State := { State.reset with agenda := bootAgenda image ++ [.core] }
    Inv s ∧ s.status ≠ .busy ∧ image.length ≤ s.params.inCapacity ∧ s.agenda = bootAgenda image ++ [.core] :=
  ⟨inv_reset.agenda _, by decide, by decide, rfl⟩

/-! ### The whole machine -/

theorem witness_InvariantHoldsAtReset : (⟨14, 0⟩ : Params).Legal ∧ (⟨2 ^ 32 - 1, 0⟩ : Params).Legal := by decide

/-- A pixel step and a SET. -/
theorem witness_EveryStepKeepsTheInvariant :
    (Inv (fresh 2 4 [0xF8, 0x7B]) ∧ ∃ t, step (fresh 2 4 [0xF8, 0x7B]) = .next t) ∧
    (Inv (asks (.setPixel 0 0 ⟨1, 2, 3, 4⟩) scenarioA) ∧
      ∃ t, step (asks (.setPixel 0 0 ⟨1, 2, 3, 4⟩) scenarioA) = .next t) :=
  ⟨⟨inv_fresh_literal, nextOr State.reset (step (fresh 2 4 [0xF8, 0x7B])), by rfl⟩,
   ⟨inv_scenarioA.agenda _, nextOr State.reset (step (asks (.setPixel 0 0 ⟨1, 2, 3, 4⟩) scenarioA)), by rfl⟩⟩

theorem witness_EveryDecodeEnds :
    let s := begun (header 1 1 4 0 ++ [0x40])
    Inv s ∧ Claims.InHeader s ∧ s.agenda = [] ∧ Claims.InputLoaded s := ⟨inv_begun, ⟨rfl, rfl⟩, rfl, loaded_begun⟩

/-- W5, and W7 where the list function gives no image. -/
theorem witness_DecodeComputesTheReferenceImage :
    (let s := begun (encodeHeader 1 1 4 0 ++ [0xFF, 10, 20, 30, 40])
     Claims.InHeader s ∧ s.agenda = [] ∧ Claims.InputHolds s 0 (encodeHeader 1 1 4 0 ++ [0xFF, 10, 20, 30, 40]) ∧
     s.inLen.toNat = 14 + [0xFF#8, 10, 20, 30, 40].length ∧
     (1#32).toNat * (1#32).toNat * (4#8).toNat ≤ s.params.outCapacity ∧
     Claims.paint 1 0 ⟨0, 0, 0, 255⟩ (fun _ => ⟨0, 0, 0, 0⟩) [0xFF, 10, 20, 30, 40] = some [⟨10, 20, 30, 40⟩]) ∧
    (let s := begun (encodeHeader 2 1 4 0 ++ [])
     Claims.InHeader s ∧ s.agenda = [] ∧ Claims.InputHolds s 0 (encodeHeader 2 1 4 0 ++ []) ∧
     s.inLen.toNat = 14 + ([] : List Byte).length ∧
     (2#32).toNat * (1#32).toNat * (4#8).toNat ≤ s.params.outCapacity ∧
     Claims.paint 2 0 ⟨0, 0, 0, 255⟩ (fun _ => ⟨0, 0, 0, 0⟩) [] = none) :=
  ⟨⟨⟨rfl, rfl⟩, rfl, holds_of_check (by decide) (by decide), by decide, by decide, by decide⟩,
   ⟨⟨rfl, rfl⟩, rfl, holds_of_check (by decide) (by decide), by decide, by decide, by decide⟩⟩

/-- P3 of spec/95_test_vectors.md: the list function gives its six pixels. -/
theorem test_paint_P3 :
    Claims.paint 6 0 ⟨0, 0, 0, 255⟩ (fun _ => ⟨0, 0, 0, 0⟩) [0x41, 0x07, 0xE9, 0x4A, 0x53, 0xF6, 0x11, 0x22, 0x43, 0, 0, 0] =
      some [⟨0, 0, 0, 255⟩, ⟨0, 0, 0, 255⟩, ⟨0, 0, 0, 0⟩, ⟨2, 2, 2, 3⟩, ⟨2, 17, 34, 3⟩, ⟨2, 17, 34, 3⟩] := by decide

theorem witness_CoreNeverFaults :
    let s := fresh 2 4 [0xF8, 0x7B]
    Inv s ∧ Claims.InputLoaded s ∧ TurnOf s .core s := ⟨inv_fresh_literal, filled_of_check (by decide), core_turn _ rfl⟩

/-- START, a last pixel, and reset. -/
theorem witness_StatusTransitions :
    (∃ t, step (asks (.writeReg 2 1) State.reset) = .next t ∧ t.status ≠ State.reset.status) ∧
    (∃ t, step (fresh 1 4 [0x40]) = .next t ∧ t.status ≠ (fresh 1 4 [0x40]).status) ∧
    (∃ t, step (asks .powerOnReset scenarioA) = .next t ∧ t.status ≠ scenarioA.status) :=
  ⟨⟨_, rfl, by decide⟩, ⟨nextOr State.reset (step (fresh 1 4 [0x40])), by rfl, by decide⟩, ⟨_, rfl, by decide⟩⟩

theorem witness_OnlyTheHeaderStepWritesTheHeaderRegisters :
    (∃ t, step (fresh 1 4 [0x40]) = .next t) ∧ Claims.NotReset (fresh 1 4 [0x40]) :=
  ⟨⟨nextOr State.reset (step (fresh 1 4 [0x40])), by rfl⟩, fun _ h => by cases h⟩

/-- A host turn while BUSY (a read of STATUS), and a core turn. -/
theorem witness_InputCannotChangeUnderADecode :
    (let s := asks (.readReg 0) (begun [])
     (∃ t, step s = .next t) ∧ s.status = .busy ∧ Claims.NotReset s) ∧
    (let s := fresh 1 4 [0x40]
     (∃ t, step s = .next t) ∧ ∃ u, TurnOf s .core u) :=
  ⟨⟨⟨_, rfl⟩, rfl, fun _ h => by cases h⟩,
   ⟨⟨nextOr State.reset (step (fresh 1 4 [0x40])), by rfl⟩, _, core_turn _ rfl⟩⟩

/-- The last byte of a pixel emitted, and of a pixel set; and a byte that error entry leaves without a value. -/
theorem witness_OutBytesChangeOnlyWhereWritten :
    (let s := fresh 2 4 [0xF8, 0x7B]
     let t := nextOr s (step s)
     Inv s ∧ step s = .next t ∧ Claims.NotReset s ∧ Memory.read t.outMem 3 ≠ Memory.read s.outMem 3) ∧
    (let s := asks (.setPixel 0 0 ⟨1, 2, 3, 4⟩) scenarioA
     let t := nextOr s (step s)
     Inv s ∧ step s = .next t ∧ Claims.NotReset s ∧ Memory.read t.outMem 3 ≠ Memory.read s.outMem 3) ∧
    (let s : State := { begun (header 1 1 4 0 ++ [0x40]) with inLen := 13, outMem := [(3, 40)] }
     let t := nextOr s (step s)
     Inv s ∧ step s = .next t ∧ Claims.NotReset s ∧ Memory.read t.outMem 3 ≠ Memory.read s.outMem 3) :=
  ⟨⟨inv_fresh_literal, by rfl, fun _ h => (by cases h), by decide⟩,
   ⟨inv_scenarioA.agenda _, by rfl, fun _ h => (by cases h), by decide⟩,
   ⟨inv_of_checks (by decide) (by decide) (by decide) (by decide) (by decide) (by decide) (by decide)
      (fun _ h => by cases h) (fun h => by cases h), by rfl, fun _ h => (by cases h), by decide⟩⟩

/-- One of each kind. -/
theorem witness_WhereErrorsComeFrom :
    (let s := begun []
     let t := nextOr s (step s)
     step s = .next t ∧ t.status = .error ∧ s.status ≠ .error ∧ t.err = .invalidFormat) ∧
    (let s := fresh 2 4 []
     let t := nextOr s (step s)
     step s = .next t ∧ t.status = .error ∧ s.status ≠ .error ∧ t.err = .decodeError) ∧
    (let s : State := { begun (header 1 1 4 0) with params := ⟨14, 3⟩ }
     let t := nextOr s (step s)
     step s = .next t ∧ t.status = .error ∧ s.status ≠ .error ∧ t.err = .outOfCapacity) :=
  ⟨⟨by rfl, by decide, by decide, by decide⟩, ⟨by rfl, by decide, by decide, by decide⟩,
   ⟨by rfl, by decide, by decide, by decide⟩⟩

theorem witness_ReadsAndPortAccessesKeepTheDecoder :
    (TurnOf (asks (.readReg 0) scenarioA) (.host (.readReg 0)) scenarioA ∧
      ∃ t, step (asks (.readReg 0) scenarioA) = .next t) ∧
    (TurnOf (asks (.setPixel 0 0 ⟨1, 2, 3, 4⟩) scenarioA) (.host (.setPixel 0 0 ⟨1, 2, 3, 4⟩)) scenarioA ∧
      ∃ t, step (asks (.setPixel 0 0 ⟨1, 2, 3, 4⟩) scenarioA) = .next t) :=
  ⟨⟨asks_turn _ _ rfl, _, rfl⟩,
   ⟨asks_turn _ _ rfl, nextOr State.reset (step (asks (.setPixel 0 0 ⟨1, 2, 3, 4⟩) scenarioA)), by rfl⟩⟩

/-- Two instances: one in its pixel loop, one asked for a pixel. -/
theorem witness_InstancesShareNothing :
    let sys : System := ⟨fresh 1 4 [0x40], [asks (.getPixel 0 0) scenarioA]⟩
    (∃ sys', System.step 1 sys = .next sys') ∧ (0 : Nat) ≠ 1 ∧ ∃ a, System.run [0, 1] sys = .next a :=
  ⟨⟨⟨fresh 1 4 [0x40], [nextOr State.reset (step (asks (.getPixel 0 0) scenarioA))]⟩, by rfl⟩, by decide,
   ⟨nextOr State.reset (step (fresh 1 4 [0x40])), [nextOr State.reset (step (asks (.getPixel 0 0) scenarioA))]⟩, by rfl⟩

end Sys2Proof.Tests
end

section
/-! PROOFS. The scope of the model (spec/00_scope.md): the invariant at reset, and the independence of instances. -/

namespace Sys2Proof.Machine

/-! ### Right after reset -/

/-- No address has a value in an empty memory, whatever its capacity. -/
theorem within_nil (capacity : Nat) : Within [] capacity := fun a v h => by
  rw [Memory.read_nil] at h; cases h

/-- Empty memories, IDLE and ERR = NONE meet every clause of the invariant; only the sizes have to be legal. -/
theorem inv_resetWith {p : Params} (hp : p.Legal) : Inv (State.resetWith p) where
  legal := hp
  inWf := .nil
  outWf := .nil
  inWithin := within_nil _
  outWithin := within_nil _
  inLen := Nat.zero_le _
  err := by simp [State.resetWith]
  loop := fun h => by cases h
  done := fun h => by cases h

theorem config_params_legal : Config.params.Legal := by decide

/-- Settles O49: reset at the sizes of log 1 is reset at legal sizes. -/
theorem invariantHoldsAtReset : Obligations.InvariantHoldsAtReset :=
  ⟨inv_resetWith config_params_legal, fun _ => inv_resetWith⟩

/-! ### Steps of several instances -/

/-- The converse of `System.step_cases`: an instance's own step is a step of the system. -/
theorem System.step_of_step {sys : System} {k : Nat} {s t : State} (hs : sys.get k = some s)
    (ht : Sys2Proof.Machine.step s = .next t) : System.step k sys = .next (sys.set t k) := by
  simp only [System.step, hs, ht]

@[simp] theorem System.run_nil (sys : System) : System.run [] sys = .next sys := rfl

/-- An interleaving leads on exactly when its first step does and the rest leads on from there. -/
theorem System.run_cons_eq_next_iff {k : Nat} {ks : List Nat} {sys a : System} :
    System.run (k :: ks) sys = .next a ↔ ∃ b, System.step k sys = .next b ∧ System.run ks b = .next a := by
  rw [System.run]
  cases System.step k sys <;> simp

/-- Two steps, which is what the commutation of two instances speaks of. -/
theorem System.run_pair_eq_next_iff {j k : Nat} {sys a : System} :
    System.run [j, k] sys = .next a ↔ ∃ b, System.step j sys = .next b ∧ System.step k b = .next a := by
  simp [System.run_cons_eq_next_iff]

/-- A step of instance `k` leaves every other instance as it is (R214). -/
theorem System.step_get_other {sys sys' : System} {j k : Nat} (h : System.step k sys = .next sys') (hjk : j ≠ k) :
    sys'.get j = sys.get j := by
  obtain ⟨s, t, -, -, rfl⟩ := System.step_cases h
  exact System.get_set_other sys t hjk

/-- No step adds or removes an instance. -/
theorem System.step_count {sys sys' : System} {k : Nat} (h : System.step k sys = .next sys') :
    sys'.count = sys.count := by
  obtain ⟨s, t, -, -, rfl⟩ := System.step_cases h
  exact System.set_count sys t k

/-- A step of instance `k` takes that instance where its own step does. -/
theorem System.step_get_self {sys sys' : System} {k : Nat} (h : System.step k sys = .next sys') :
    ∃ s t, sys.get k = some s ∧ Sys2Proof.Machine.step s = .next t ∧ sys'.get k = some t := by
  obtain ⟨s, t, hs, ht, rfl⟩ := System.step_cases h
  exact ⟨s, t, hs, ht, System.get_set_self hs t⟩

/-- Steps of two instances commute: each finds its own instance as the other's step left it, which is unchanged, and the
two results are put in different places. -/
theorem System.step_comm {sys b a : System} {j k : Nat} (hjk : j ≠ k) (hj : System.step j sys = .next b)
    (hk : System.step k b = .next a) : ∃ c, System.step k sys = .next c ∧ System.step j c = .next a := by
  obtain ⟨s, t, hs, ht, rfl⟩ := System.step_cases hj
  obtain ⟨u, v, hu, hv, rfl⟩ := System.step_cases hk
  have hu' : sys.get k = some u := by rwa [System.get_set_other sys t hjk.symm] at hu
  have hs' : (sys.set v k).get j = some s := by rwa [System.get_set_other sys v hjk]
  refine ⟨sys.set v k, System.step_of_step hu' hv, ?_⟩
  rw [System.set_comm sys t v hjk]
  exact System.step_of_step hs' ht

/-- Settles O60: the frame and the own effect of a system's step, and the commutation of two steps. -/
theorem instancesShareNothing : Obligations.InstancesShareNothing := by
  refine ⟨fun sys sys' k h => ?_, fun sys a j k hjk h => ?_⟩
  · exact ⟨fun j hjk => System.step_get_other h hjk, sys.count_pos, System.step_count h, System.step_get_self h⟩
  · obtain ⟨b, hj, hk⟩ := System.run_pair_eq_next_iff.1 h
    exact System.run_pair_eq_next_iff.2 (System.step_comm hjk hj hk)

end Sys2Proof.Machine
end

section
/-! PROOFS. The state (spec/10_state.md): what each opcode, each step of the core and each host action
leaves as it was, and the invariant that all of them keep. -/

namespace Sys2Proof

/-! ### What the decoder gives: its length and its operand ranges -/

/-- A LITERAL operand is there, and takes a byte, exactly when its flag is set. -/
theorem takeOperand_spec {flag : Bool} {bs rest : List Byte} {o : Option Byte}
    (h : takeOperand flag bs = some (o, rest)) : o.isSome = flag ∧ bs.length = flag.toNat + rest.length := by
  cases flag with
  | false => cases h; exact ⟨rfl, (Nat.zero_add _).symm⟩
  | true =>
    cases bs with
    | nil => cases h
    | cons b bs => cases h; exact ⟨rfl, Nat.add_comm _ 1⟩

/-- A LITERAL is as long as its flags say, and takes as many bytes after its tag byte as flags are set. -/
theorem takeLiteral_spec {b0 : Byte} {bs rest : List Byte} {i : Instr} (h : takeLiteral b0 bs = some (i, rest)) :
    i.WellFormed ∧ i.length = 1 + flagCount b0 ∧ bs.length = flagCount b0 + rest.length := by
  simp only [takeLiteral] at h
  split at h
  · cases h
  · rename_i hr
    split at h
    · cases h
    · rename_i hg
      split at h
      · cases h
      · rename_i hb
        split at h
        · cases h
        · rename_i ha
          cases h
          obtain ⟨hr, hrl⟩ := takeOperand_spec hr
          obtain ⟨hg, hgl⟩ := takeOperand_spec hg
          obtain ⟨hb, hbl⟩ := takeOperand_spec hb
          obtain ⟨ha, hal⟩ := takeOperand_spec ha
          refine ⟨rfl, ?_, ?_⟩
          · simp only [Instr.length, flagCount, hr, hg, hb, ha]; omega
          · simp only [flagCount]; omega

theorem diffSmallOf_wellFormed (b0 : Byte) : (diffSmallOf b0).WellFormed := by
  have field (x : Byte) : InBias 2 (unbias 2 (x &&& 0x3#8)) := unbias_inBias (and_le_mask x 0x3#8) (by decide)
  simpa only [Instr.WellFormed, diffSmallOf, Instr.wellFormed, decide_eq_true_eq] using
    ⟨field (b0 >>> 4), field (b0 >>> 2), field b0⟩

theorem diffMediumOf_wellFormed (b0 b1 : Byte) : (diffMediumOf b0 b1).WellFormed := by
  have high : (b1 >>> 4).toNat ≤ 15 := by
    have := b1.isLt
    rw [BitVec.toNat_ushiftRight, Nat.shiftRight_eq_div_pow]; omega
  simpa only [Instr.WellFormed, diffMediumOf, Instr.wellFormed, decide_eq_true_eq] using
    ⟨unbias_inBias (bias := 16) (and_le_mask b0 0x1F#8) (by decide), unbias_inBias (bias := 8) high (by decide),
      unbias_inBias (bias := 8) (and_le_mask b1 0x0F#8) (by decide)⟩

theorem diffLargeOf_wellFormed (b0 b1 b2 : Byte) : (diffLargeOf b0 b1 b2).WellFormed := by
  have joined {x y : Byte} (hx : x.toNat < 2 ^ 5) (hy : y.toNat < 2 ^ 5) : (x ||| y).toNat ≤ 31 := by
    rw [BitVec.toNat_or]; exact Nat.le_of_lt_succ (Nat.or_lt_two_pow hx hy)
  have first : ((b0 &&& 0x0F#8) <<< 1).toNat < 2 ^ 5 := by
    have : (b0 &&& 0x0F#8).toNat ≤ 15 := and_le_mask b0 0x0F#8
    rw [BitVec.toNat_shiftLeft, Nat.shiftLeft_eq]; omega
  have third : ((b1 &&& 0x03#8) <<< 3).toNat < 2 ^ 5 := by
    have : (b1 &&& 0x03#8).toNat ≤ 3 := and_le_mask b1 0x03#8
    rw [BitVec.toNat_shiftLeft, Nat.shiftLeft_eq]; omega
  have rest1 : (b1 >>> 7).toNat < 2 ^ 5 := by
    have := b1.isLt
    rw [BitVec.toNat_ushiftRight, Nat.shiftRight_eq_div_pow]; omega
  have rest2 : (b2 >>> 5).toNat < 2 ^ 5 := by
    have := b2.isLt
    rw [BitVec.toNat_ushiftRight, Nat.shiftRight_eq_div_pow]; omega
  simpa only [Instr.WellFormed, diffLargeOf, Instr.wellFormed, decide_eq_true_eq] using
    ⟨unbias_inBias (bias := 16) (joined first rest1) (by decide),
      unbias_inBias (bias := 16) (and_le_mask (b1 >>> 2) 0x1F#8) (by decide),
      unbias_inBias (bias := 16) (joined third rest2) (by decide),
      unbias_inBias (bias := 16) (and_le_mask b2 0x1F#8) (by decide)⟩

theorem runShortField_wellFormed (b0 : Byte) : (Instr.runShort (runShortField b0)).WellFormed := by
  have : runShortField b0 ≤ 31 := and_le_mask b0 0x1F#8
  simpa [Instr.WellFormed, Instr.wellFormed] using this

theorem runLongField_wellFormed (b0 b1 : Byte) : (Instr.runLong (runLongField b0 b1)).WellFormed := by
  have : (b0 &&& 0x1F#8).toNat ≤ 31 := and_le_mask b0 0x1F#8
  have := b1.isLt
  have : 32 ≤ runLongField b0 b1 ∧ runLongField b0 b1 ≤ 8223 := by simp only [runLongField]; omega
  simpa [Instr.WellFormed, Instr.wellFormed] using this

/-- What the decoder reads has operands in range, is as long as its tag byte says, and takes just so many bytes (R72,
R84). -/
theorem decode_spec {b0 : Byte} {more rest : List Byte} {i : Instr} (h : decode (b0 :: more) = .ok (i, rest)) :
    i.WellFormed ∧ i.length = opLength b0 ∧ more.length + 1 = opLength b0 + rest.length := by
  simp only [decode] at h
  simp only [opLength]
  cases hd : decodeTag b0 <;> simp only [hd] at h ⊢
  case index => cases h; exact ⟨rfl, rfl, Nat.add_comm _ _⟩
  case runShort => cases h; exact ⟨runShortField_wellFormed b0, rfl, Nat.add_comm _ _⟩
  case diffSmall => cases h; exact ⟨diffSmallOf_wellFormed b0, rfl, Nat.add_comm _ _⟩
  case runLong =>
    cases more with
    | nil => cases h
    | cons b1 more => cases h; exact ⟨runLongField_wellFormed b0 b1, rfl, Nat.add_comm _ 2⟩
  case diffMedium =>
    cases more with
    | nil => cases h
    | cons b1 more => cases h; exact ⟨diffMediumOf_wellFormed b0 b1, rfl, Nat.add_comm _ 2⟩
  case diffLarge =>
    split at h
    · rename_i b1 b2 _; cases h; exact ⟨diffLargeOf_wellFormed b0 b1 b2, rfl, Nat.add_comm _ 3⟩
    · cases h
  case literal =>
    split at h
    · rename_i out ho
      cases h
      obtain ⟨hw, hl, hm⟩ := takeLiteral_spec ho
      exact ⟨hw, hl, by omega⟩
    · cases h

theorem opLength_pos (b0 : Byte) : 1 ≤ opLength b0 := by
  simp only [opLength]; split <;> omega

end Sys2Proof

namespace Sys2Proof.Machine

/-! ### What an opcode does -/

/-- `s` with the four registers an opcode may write taken from `v`. -/
def withOpcodeRegs (s v : State) : State := { s with px := v.px, run := v.run, pos := v.pos, cache := v.cache }

/-- An opcode writes PX, RUN, POS and CACHE only. -/
theorem exec_frame {i : Instr} {s t : State} (h : exec i s = .next t) : t = withOpcodeRegs s t := by
  obtain ⟨u, hu, hf⟩ := exec_next i s
  cases h.symm.trans hu
  exact hf

/-- An opcode reads PX, RUN, POS and CACHE only: in a state with the same four it leaves the same four. -/
theorem exec_congr {i : Instr} {s t : State} (h : exec i s = .next t) (u : State) :
    exec i (withOpcodeRegs u s) = .next (withOpcodeRegs u t) := by
  cases i <;> (cases h; rfl)

theorem exec_opcodeFrame {i : Instr} {s t : State} (h : exec i s = .next t) : Claims.OpcodeFrame s t := by
  rw [exec_frame h]; exact ⟨rfl, fun _ => ⟨rfl, rfl⟩⟩

/-- The cache write as the statements say it (R112). -/
theorem cacheWrite_slotWritten (s : State) : Claims.SlotWritten s.cache (cacheWrite s).cache s.px := by
  intro k
  have h := cacheWrite_get s k
  have hk : (k = slotOf s.px) ↔ k.val = Claims.slotNumber s.px := by
    rw [Fin.ext_iff, slotOf_val]; rfl
  simp only [hk] at h
  exact h

/-- R113. -/
theorem exec_keeps_cache {i : Instr} {s t : State} (h : exec i s = .next t) (hw : Claims.writesCache i = false) :
    t.cache = s.cache := by
  cases i with
  | index k => cases h; rfl
  | runShort n => cases h; rfl
  | runLong n => cases h; rfl
  | diffSmall dr dg db => cases hw
  | diffMedium dr dg db => cases hw
  | diffLarge vr vg vb va => cases hw
  | literal r g b a => cases hw

/-- R112. -/
theorem exec_slotWritten {i : Instr} {s t : State} (h : exec i s = .next t) (hw : Claims.writesCache i = true) :
    Claims.SlotWritten s.cache t.cache t.px := by
  cases i with
  | index k => cases hw
  | runShort n => cases hw
  | runLong n => cases hw
  | diffSmall dr dg db => cases h; exact cacheWrite_slotWritten _
  | diffMedium dr dg db => cases h; exact cacheWrite_slotWritten _
  | diffLarge vr vg vb va => cases h; exact cacheWrite_slotWritten _
  | literal r g b a => cases h; exact cacheWrite_slotWritten _

/-- R28: RUN is written by the run opcodes alone. -/
theorem exec_keeps_run {i : Instr} {s t : State} (h : exec i s = .next t) (hs : ∀ n, i ≠ .runShort n)
    (hl : ∀ n, i ≠ .runLong n) : t.run = s.run := by
  cases i with
  | runShort n => exact absurd rfl (hs n)
  | runLong n => exact absurd rfl (hl n)
  | index k => cases h; rfl
  | diffSmall dr dg db => cases h; rfl
  | diffMedium dr dg db => cases h; rfl
  | diffLarge vr vg vb va => cases h; rfl
  | literal r g b a => cases h; rfl

/-- R131, R132: a run opcode repeats PX as it is. -/
theorem exec_run_keeps_px {i : Instr} {s t : State} (h : exec i s = .next t)
    (hr : ∃ n, i = .runShort n ∨ i = .runLong n) : t.px = s.px := by
  obtain ⟨n, rfl | rfl⟩ := hr <;> (cases h; rfl)

/-- Settles O17: the frame, the slots other than the new pixel's, RUN, and PX of a run. -/
theorem opcodesKeepWhatTheyDoNotWrite : Obligations.OpcodesKeepWhatTheyDoNotWrite := by
  intro i s t h
  refine ⟨exec_opcodeFrame h, exec_keeps_cache h, fun hw k hk => ?_, exec_keeps_run h, exec_run_keeps_px h⟩
  rw [exec_slotWritten h hw k, if_neg hk]

end Sys2Proof.Machine

/-! ### What a turn can do, case by case -/

namespace Sys2Proof.Machine

/-- `v` is the state in which the pixel step that begins in `s` emits: the opcode at POS has run, or RUN has been
lowered (R107, R108, R111). -/
def Readied (s v : State) : Prop :=
  (s.run = 0 ∧ ∃ i, fetch s = .ok (some i) ∧ exec i s = .next v) ∨
  (s.run ≠ 0 ∧ v = { s with run := s.run - 1 })

/-- What stands before the emission differs from the begin of the step in PX, RUN, POS and CACHE only. -/
theorem Readied.frame {s v : State} (h : Readied s v) :
    ∃ px run pos cache, v = { s with px := px, run := run, pos := pos, cache := cache } := by
  obtain ⟨-, i, -, hv⟩ | ⟨-, rfl⟩ := h
  · exact ⟨_, _, _, _, exec_frame hv⟩
  · exact ⟨_, _, _, _, rfl⟩

/-- A run continuation lowers RUN and does nothing else before it emits. -/
theorem Readied.of_run {s v : State} (h : Readied s v) (hr : s.run ≠ 0) : v = { s with run := s.run - 1 } := by
  obtain ⟨h0, -⟩ | ⟨-, hv⟩ := h
  · exact absurd h0 hr
  · exact hv

theorem coreTurn_of_inLoop {s : State} (h : Claims.InLoop s) : coreTurn s = pixelStep s := by
  simp only [coreTurn, h.1, h.2]

theorem coreTurn_of_inHeader {s : State} (h : Claims.InHeader s) : coreTurn s = headerStep s := by
  simp only [coreTurn, h.1, h.2]

theorem coreTurn_of_not_busy {s : State} (h : s.status ≠ .busy) : coreTurn s = .next s := by
  cases hs : s.status with
  | busy => exact absurd hs h
  | idle => simp only [coreTurn, hs]
  | done => simp only [coreTurn, hs]
  | error => simp only [coreTurn, hs]

/-- A pixel step that is readied goes on with the emission. -/
theorem coreTurn_of_readied {s v : State} (hl : Claims.InLoop s) (h : Readied s v) : coreTurn s = finishPixel v := by
  rw [coreTurn_of_inLoop hl, pixelStep]
  obtain ⟨hr, i, hf, hv⟩ | ⟨hr, rfl⟩ := h
  · rw [if_pos hr, opcodeStep]; simp only [hf, hv, andThen_next]
  · rw [if_neg hr]

theorem coreTurn_of_truncated {s : State} (hl : Claims.InLoop s) (hr : s.run = 0) (hf : fetch s = .ok none) :
    coreTurn s = .next (raise .decodeError s) := by
  rw [coreTurn_of_inLoop hl, pixelStep, if_pos hr, opcodeStep]; simp only [hf]

/-- What the core's turn can lead to. -/
inductive CoreEffect (s : State) : State → Prop
  /-- R213 -/
  | idle (h : s.status ≠ .busy) : CoreEffect s s
  /-- R102, R103 -/
  | badHeader (h : Claims.InHeader s) : CoreEffect s (raise .invalidFormat s)
  /-- R104 to R106: the fields have been read; they may still be refused -/
  | header (hd : Header) (h : Claims.InHeader s) (hl : 14 ≤ s.inLen.toNat) : CoreEffect s (acceptHeader hd s)
  /-- R109, R110 -/
  | truncated (h : Claims.InLoop s) (hr : s.run = 0) (hf : fetch s = .ok none) :
      CoreEffect s (raise .decodeError s)
  /-- R107, R108 -/
  | pixel (v t : State) (h : Claims.InLoop s) (hv : Readied s v) (ht : finishPixel v = .next t) : CoreEffect s t

theorem coreTurn_effect {s t : State} (h : coreTurn s = .next t) : CoreEffect s t := by
  obtain ⟨hs, rfl⟩ | ⟨hs, hp, hh⟩ | ⟨hs, hp, hr, hf, rfl⟩ | ⟨hs, hp, hr, i, v, hf, hv, ht⟩ |
    ⟨hs, hp, hr, ht⟩ := coreTurn_cases h
  · exact .idle hs
  · obtain rfl | ⟨hd, hl, -, rfl⟩ := headerStep_cases hh
    · exact .badHeader ⟨hs, hp⟩
    · exact .header hd ⟨hs, hp⟩ hl
  · exact .truncated ⟨hs, hp⟩ hr hf
  · exact .pixel v t ⟨hs, hp⟩ (.inl ⟨hr, i, hf, hv⟩) ht
  · exact .pixel _ t ⟨hs, hp⟩ (.inr ⟨hr, rfl⟩) ht

/-- The header registers and NPIX as R104 and R105 set them. -/
def headerSet (hd : Header) (s : State) : State := { setHeader hd s with npix := pixelTotal hd.width hd.height }

/-- A header that has been read is refused for its channel count or its size, or starts the pixel loop. -/
theorem acceptHeader_cases (hd : Header) (s : State) :
    acceptHeader hd s = raise .invalidFormat (setHeader hd s) ∨
    acceptHeader hd s = raise .outOfCapacity (headerSet hd s) ∨
    ((hd.channels = 3 ∨ hd.channels = 4) ∧
      hd.width.toNat * hd.height.toNat * hd.channels.toNat ≤ s.params.outCapacity ∧
      acceptHeader hd s = initDecode (headerSet hd s)) := by
  simp only [acceptHeader, pixelTotal_toNat]
  split
  · exact .inl rfl
  · rename_i hch
    split
    · exact .inr (.inl rfl)
    · rename_i hcap
      exact .inr (.inr ⟨by tauto, by omega, rfl⟩)

theorem acceptHeader_good {hd : Header} {s : State} (hch : hd.channels = 3 ∨ hd.channels = 4)
    (hcap : hd.width.toNat * hd.height.toNat * hd.channels.toNat ≤ s.params.outCapacity) :
    acceptHeader hd s = initDecode (headerSet hd s) := by
  rw [acceptHeader, if_neg (by tauto), if_neg (by rw [pixelTotal_toNat]; omega)]; rfl

/-- Bit 0 of a CTRL value is its parity. -/
theorem ctrlStart_iff {v : BitVec 32} : v.getLsbD 0 = true ↔ v.toNat % 2 = 1 := by
  simp [BitVec.getLsbD, Nat.testBit_zero]

/-- What a host action can lead to. -/
inductive HostEffect (s : State) : HostReq → State → Prop
  /-- a read, a GET, an access without effect: nothing but the answer (R32, R34, R182, R186) -/
  | answer (r : HostReq) (a : Option Answer) : HostEffect s r { s with answer := a }
  /-- R101 -/
  | start (v : BitVec 32) (hv : v.toNat % 2 = 1) (h : s.status ≠ .busy) :
      HostEffect s (.writeReg 2 v) { startDecode s with answer := none }
  /-- R31 -/
  | inLen (v : BitVec 32) (hv : v.toNat ≤ s.params.inCapacity) (h : s.status ≠ .busy) :
      HostEffect s (.writeReg 3 v) { s with inLen := v, answer := none }
  /-- R58 -/
  | inWrite (a : Nat) (v : Byte) (ha : a < s.params.inCapacity) (h : s.status ≠ .busy) :
      HostEffect s (.inWrite a v) { s with inMem := Memory.write s.inMem a v, answer := none }
  /-- R183 -/
  | set (x y : BitVec 32) (p : Pixel) (h : s.status = .done)
      (hfit : rasterOffset s x y + (storedBytes s.channels p).length ≤ s.params.outCapacity) :
      HostEffect s (.setPixel x y p)
        { s with outMem := Memory.writeBytes s.outMem (rasterOffset s x y) (storedBytes s.channels p),
                 answer := some .ok }
  /-- R230 -/
  | reset : HostEffect s .powerOnReset { State.resetWith s.params with agenda := s.agenda, freeCtr := s.freeCtr }

theorem answered_next {a : Option Answer} {s t : State} (h : answered a s = .next t) : t = { s with answer := a } := by
  cases h; rfl

theorem hostReadReg_effect {n : Nat} {s t : State} (h : hostReadReg n s = .next t) :
    HostEffect s (.readReg n) t := by
  simp only [hostReadReg] at h
  split at h
  · cases h
  · split at h
    · split at h
      · rw [answered_next h]; exact .answer _ _
      all_goals cases h
    · rw [answered_next h]; exact .answer _ _

theorem hostWriteReg_effect {n : Nat} {v : BitVec 32} {s t : State} (h : hostWriteReg n v s = .next t) :
    HostEffect s (.writeReg n v) t := by
  match n with
  | 0 | 1 | 4 | 5 | 6 | 7 => rw [answered_next h]; exact .answer _ _
  | 2 =>
    replace h : hostWriteCtrl v s = .next t := h
    simp only [hostWriteCtrl] at h
    split at h
    · rename_i hv
      split at h
      · cases h
      · rename_i hs; rw [answered_next h]; exact .start v (ctrlStart_iff.1 hv) hs
    · rw [answered_next h]; exact .answer _ _
  | 3 =>
    replace h : hostWriteInLen v s = .next t := h
    simp only [hostWriteInLen] at h
    split at h
    · cases h
    · rename_i hs
      split at h
      · rename_i hv; rw [answered_next h]; exact .inLen v hv hs
      · cases h
  | n + 8 => cases h

theorem hostInWrite_effect {a : Nat} {v : Byte} {s t : State} (h : hostInWrite a v s = .next t) :
    HostEffect s (.inWrite a v) t := by
  simp only [hostInWrite] at h
  split at h
  · cases h
  · rename_i hs
    split at h
    · rename_i ha; rw [answered_next h]; exact .inWrite a v ha hs
    · cases h

/-- What GET answers, and when (R180 to R182). -/
theorem hostGet_next_iff {x y : BitVec 32} {s t : State} : hostGet x y s = .next t ↔
    s.status = .done ∧
    ((inBounds s x y = true ∧ ∃ p, readPixel s (rasterOffset s x y) = .ok p ∧
      t = { s with answer := some (.pixel p) }) ∨
     (inBounds s x y = false ∧ t = { s with answer := some .outOfRange })) := by
  by_cases hs : s.status = .done
  · cases hb : inBounds s x y with
    | true =>
      cases hp : readPixel s (rasterOffset s x y) <;> simp [hostGet, answered, hs, hb, hp, eq_comm]
    | false => simp [hostGet, answered, hs, hb, eq_comm]
  · simp [hostGet, hs]

/-- What SET answers, and when (R180, R182, R183). -/
theorem hostSet_next_iff {x y : BitVec 32} {p : Pixel} {s t : State} : hostSet x y p s = .next t ↔
    s.status = .done ∧
    ((inBounds s x y = true ∧ rasterOffset s x y + (storedBytes s.channels p).length ≤ s.params.outCapacity ∧
      t = { s with outMem := Memory.writeBytes s.outMem (rasterOffset s x y) (storedBytes s.channels p),
                   answer := some .ok }) ∨
     (inBounds s x y = false ∧ t = { s with answer := some .outOfRange })) := by
  by_cases hs : s.status = .done
  · cases hb : inBounds s x y with
    | true =>
      by_cases hfit : rasterOffset s x y + (storedBytes s.channels p).length ≤ s.params.outCapacity <;>
        simp [hostSet, outWriteBytes, outcomeOf, andThen, answered, hs, hb, hfit, eq_comm]
    | false => simp [hostSet, answered, hs, hb, eq_comm]
  · simp [hostSet, hs]

theorem hostGet_effect {x y : BitVec 32} {s t : State} (h : hostGet x y s = .next t) :
    HostEffect s (.getPixel x y) t := by
  obtain ⟨-, ⟨-, p, -, rfl⟩ | ⟨-, rfl⟩⟩ := hostGet_next_iff.1 h
  · exact .answer _ _
  · exact .answer _ _

theorem hostSet_effect {x y : BitVec 32} {p : Pixel} {s t : State} (h : hostSet x y p s = .next t) :
    HostEffect s (.setPixel x y p) t := by
  obtain ⟨hs, ⟨-, hfit, rfl⟩ | ⟨-, rfl⟩⟩ := hostSet_next_iff.1 h
  · exact .set x y p hs hfit
  · exact .answer _ _

theorem hostTurn_effect {r : HostReq} {s t : State} (h : hostTurn r s = .next t) : HostEffect s r t := by
  cases r with
  | readReg n => exact hostReadReg_effect h
  | writeReg n v => exact hostWriteReg_effect h
  | inWrite a v => exact hostInWrite_effect h
  | getPixel x y => exact hostGet_effect h
  | setPixel x y p => exact hostSet_effect h
  | powerOnReset => cases h; exact .reset

/-- A step is the core's turn or one of the host's actions, in the state with the agenda's head taken off. -/
theorem step_effect {s t : State} (h : step s = .next t) :
    ∃ u, (TurnOf s .core u ∧ CoreEffect u t) ∨ ∃ r, TurnOf s (.host r) u ∧ HostEffect u r t := by
  obtain ⟨τ, u, hu⟩ := turnOf_total s
  refine ⟨u, ?_⟩
  cases τ with
  | core => exact .inl ⟨hu, coreTurn_effect (by rw [← step_core hu, h])⟩
  | host r => exact .inr ⟨r, hu, hostTurn_effect (by rw [← step_host hu, h])⟩

/-- A turn changes the agenda alone. -/
theorem TurnOf.exists_agenda {s u : State} {τ : Turn} (h : TurnOf s τ u) : ∃ l, u = { s with agenda := l } :=
  ⟨_, h.eq⟩

end Sys2Proof.Machine

/-! ### The pixel step -/

namespace Sys2Proof.Machine

/-- The bytes of a pixel, stored, as the statements say it (R114, R183). -/
theorem storedBytes_pixelStored {ch : Byte} (hch : ch = 3 ∨ ch = 4) (m : List Host.Cell) (a : Nat) (p : Pixel) :
    Claims.PixelStored m (Memory.writeBytes m a (storedBytes ch p)) a ch.toNat p := by
  intro x
  rw [Memory.read_writeBytes, storedBytes_length hch]
  split
  · exact storedBytes_get hch p (by omega)
  · rfl

theorem finishPixel_pixelFinished {v t : State} (hch : v.channels = 3 ∨ v.channels = 4)
    (h : finishPixel v = .next t) : Claims.PixelFinished v t := by
  obtain ⟨-, rfl⟩ := finishPixel_next_iff.1 h
  exact ⟨rfl, fun hn => ⟨if_neg hn, if_neg hn⟩, storedBytes_pixelStored hch _ _ _⟩

theorem finishPixel_of_emittable {v : State} (h : Claims.Emittable v) :
    ∃ t, finishPixel v = .next t ∧ Claims.PixelFinished v t := by
  have hfit : v.outpos.toNat + (storedBytes v.channels v.px).length ≤ v.params.outCapacity := by
    rw [storedBytes_length h.1]; exact h.2
  have ht := finishPixel_next_iff.2 ⟨hfit, rfl⟩
  exact ⟨_, ht, finishPixel_pixelFinished h.1 ht⟩

theorem Readied.emittable {s v : State} (h : Readied s v) (he : Claims.Emittable s) : Claims.Emittable v := by
  obtain ⟨px, run, pos, cache, rfl⟩ := h.frame
  exact he

/-- A readied step whose pixel fits ends as `Claims.PixelFinished` says. -/
theorem step_of_readied {s u v : State} (hu : TurnOf s .core u) (hl : Claims.InLoop u) (hv : Readied u v)
    (he : Claims.Emittable u) : ∃ t, step s = .next t ∧ Claims.PixelFinished v t := by
  rw [step_core hu, coreTurn_of_readied hl hv]
  exact finishPixel_of_emittable (hv.emittable he)

theorem inRead_of_inputHolds {s : State} {a : Nat} {bytes : List Byte} (h : Claims.InputHolds s a bytes) {j : Nat}
    {v : Byte} (hj : bytes[j]? = some v) : inRead s (a + j) = .ok v := by
  have : j < bytes.length := (List.getElem?_eq_some_iff.1 hj).1
  have := h.1
  exact inRead_ok_iff.2 ⟨by omega, h.2 j v hj⟩

theorem inReadBytes_of_inputHolds {s : State} {a : Nat} {bytes : List Byte} (h : Claims.InputHolds s a bytes) :
    inReadBytes s a bytes.length = .ok bytes :=
  inReadBytes_ok_iff.2 ⟨rfl, fun _ _ => inRead_of_inputHolds h⟩

/-- The bytes at POS that decode to an opcode, all below IN_LEN, are fetched as that opcode. -/
theorem fetch_of_inputHolds {s : State} {bytes : List Byte} {i : Instr} (hd : decode bytes = .ok (i, []))
    (hb : Claims.InputHolds s s.pos.toNat bytes) (hl : s.pos.toNat + bytes.length ≤ s.inLen.toNat) :
    fetch s = .ok (some i) := by
  cases bytes with
  | nil => cases hd
  | cons b0 more =>
    obtain ⟨-, -, hlen⟩ := decode_spec hd
    have hlen : (b0 :: more).length = opLength b0 := by simpa using hlen
    have h0 : inRead s s.pos.toNat = .ok b0 := inRead_of_inputHolds hb (j := 0) rfl
    have hbytes := inReadBytes_of_inputHolds hb
    rw [hlen] at hbytes hl
    have hpos := opLength_pos b0
    have h1 : inAvail s s.pos.toNat 1 = true := inAvail_iff.2 (by omega)
    have hn : inAvail s s.pos.toNat (opLength b0) = true := inAvail_iff.2 hl
    simp only [fetch, h1, if_true, bind, Except.bind, h0, hn, hbytes, hd]

/-- Settles O21: the fetch finds the opcode, and what is readied so is emitted. -/
theorem stepRunsTheDecodedOpcode : Obligations.StepRunsTheDecodedOpcode := by
  intro s u bytes i hu hl hr hd hb hlen he
  obtain ⟨v, hv, -⟩ := exec_next i u
  obtain ⟨t, ht, hfin⟩ := step_of_readied hu hl (.inl ⟨hr, i, fetch_of_inputHolds hd hb hlen, hv⟩) he
  exact ⟨v, t, hv, ht, hfin⟩

/-- Settles O22: a step with RUN above 0 is readied without a look at POS or IN. -/
theorem runContinuationRepeatsThePixel : Obligations.RunContinuationRepeatsThePixel :=
  fun _ _ hu hl hr he => step_of_readied hu hl (.inr ⟨hr, rfl⟩) he

/-- A turn in the pixel loop is a decode error or emits a pixel. -/
theorem coreTurn_inLoop_cases {s t : State} (hl : Claims.InLoop s) (h : coreTurn s = .next t) :
    (s.run = 0 ∧ fetch s = .ok none ∧ t = raise .decodeError s) ∨
    ∃ v, Readied s v ∧ finishPixel v = .next t := by
  have header (hh : Claims.InHeader s) : False := by cases hl.2.symm.trans hh.2
  cases coreTurn_effect h with
  | idle hs => exact absurd hl.1 hs
  | badHeader hh => exact (header hh).elim
  | header _ hh => exact (header hh).elim
  | truncated _ hr hf => exact .inl ⟨hr, hf, rfl⟩
  | pixel v _ _ hv ht => exact .inr ⟨v, hv, ht⟩

/-- Settles O25: the step that is no decode error has been readied in PX, RUN, POS and CACHE only, and ends with the
emission. -/
theorem everyPixelStepEmitsOnePixel : Obligations.EveryPixelStepEmitsOnePixel := by
  intro s u t hu hl hch ht hne
  obtain ⟨-, -, rfl⟩ | ⟨v, hv, hfin⟩ := coreTurn_inLoop_cases hl ((step_core hu).symm.trans ht)
  · exact absurd rfl hne
  have hrun (hr : u.run ≠ 0) : v.run = u.run - 1 ∧ v.pos = u.pos ∧ v.px = u.px ∧ v.cache = u.cache := by
    rw [hv.of_run hr]; exact ⟨rfl, rfl, rfl, rfl⟩
  obtain ⟨px, run, pos, cache, rfl⟩ := hv.frame
  obtain ⟨-, rfl⟩ := finishPixel_next_iff.1 hfin
  refine ⟨rfl, rfl, storedBytes_pixelStored hch _ _ _, ?_, fun _ => rfl, rfl, rfl, rfl, rfl, rfl, rfl, rfl, ?_, hrun⟩
  · simp [hl.1]
  · intro hnd
    simp only [advanceCounters_status, ne_eq, ite_eq_left_iff, not_forall] at hnd
    exact if_neg hnd.1

/-! ### Three channels and four (R120) -/

theorem inReadBytes_congr {s s' : State} : ∀ {n a : Nat}, (∀ x, a ≤ x → x < a + n → inRead s' x = inRead s x) →
    inReadBytes s' a n = inReadBytes s a n
  | 0, _, _ => rfl
  | n + 1, a, h => by
    have h0 := h a (Nat.le_refl a) (by omega)
    have hrest := inReadBytes_congr (n := n) (a := a + 1) fun x hx hx' => h x (by omega) (by omega)
    simp only [inReadBytes, h0, hrest]

/-- A fetch looks at IN_LEN, at POS and at the input from POS on. -/
theorem fetch_congr {s s' : State} (hl : s'.inLen = s.inLen) (hp : s'.pos = s.pos)
    (hr : ∀ a, s.pos.toNat ≤ a → inRead s' a = inRead s a) : fetch s' = fetch s := by
  have hav (a n : Nat) : inAvail s' a n = inAvail s a n := by simp only [inAvail, hl]
  simp only [fetch, hav, hp, hr _ (Nat.le_refl _), inReadBytes_congr fun x hx _ => hr x hx]

/-- What readies a pixel step reads only what is fetched, PX, RUN, POS and CACHE. -/
theorem Readied.congr {s v : State} (h : Readied s v) (u : State) (hf : fetch (withOpcodeRegs u s) = fetch s) :
    Readied (withOpcodeRegs u s) (withOpcodeRegs u v) := by
  obtain ⟨hr, i, hi, hv⟩ | ⟨hr, rfl⟩ := h
  · exact .inl ⟨hr, i, hf.trans hi, exec_congr hv u⟩
  · exact .inr ⟨hr, rfl⟩

/-- `s` with another channel count, OUTPOS and OUT: what `Claims.SameButOut` leaves open. -/
def withOutput (s : State) (ch : Byte) (o : BitVec 66) (m : List Host.Cell) : State :=
  { s with channels := ch, outpos := o, outMem := m }

theorem fetch_withOutput (s : State) (ch : Byte) (o : BitVec 66) (m : List Host.Cell) :
    fetch (withOutput s ch o m) = fetch s := fetch_congr rfl rfl fun _ _ => rfl

/-- Settles O28: both steps are readied alike, since neither the fetch nor an opcode looks at CHANNELS, OUTPOS or OUT,
and the completion looks at PIXCNT and NPIX only. -/
theorem threeChannelStepAgreesWithFour : Obligations.ThreeChannelStepAgreesWithFour := by
  intro s4 s3 t4 hsame h4 h3 hag hl he ht
  obtain ⟨ch, o, m, rfl⟩ : ∃ ch o m, s3 = withOutput s4 ch o m := ⟨_, _, _, hsame⟩
  obtain rfl : ch = 3 := h3
  have hl3 : Claims.InLoop (withOutput s4 3 o m) := hl
  have hf := fetch_withOutput s4 3 o m
  rw [step_core (.of_nil hag)] at ht
  rw [step_core (.of_nil (s := withOutput s4 3 o m) hag)]
  obtain ⟨hr, hn, rfl⟩ | ⟨v, hv, hfin⟩ := coreTurn_inLoop_cases hl ht
  · exact ⟨_, coreTurn_of_truncated hl3 hr (hf.trans hn), rfl, h4, rfl, fun h => absurd rfl h⟩
  · have hv3 : Readied (withOutput s4 3 o m) (withOpcodeRegs (withOutput s4 3 o m) v) :=
      hv.congr (withOutput s4 3 o m) hf
    obtain ⟨t3, ht3, -⟩ := finishPixel_of_emittable (hv3.emittable he)
    refine ⟨t3, (coreTurn_of_readied hl3 hv3).trans ht3, ?_⟩
    obtain ⟨px, run, pos, cache, rfl⟩ := hv.frame
    obtain ⟨-, rfl⟩ := finishPixel_next_iff.1 hfin
    obtain ⟨-, rfl⟩ := finishPixel_next_iff.1 ht3
    refine ⟨rfl, h4, rfl, fun _ => ⟨?_, rfl⟩⟩
    simp only [advanceCounters_outpos, h4]; rfl

end Sys2Proof.Machine

/-! ### What steps leave unchanged: STATUS, the header registers, the input -/

namespace Sys2Proof.Machine

/-- The core changes STATUS only from BUSY, to DONE or ERROR (R21). -/
theorem CoreEffect.status {s t : State} (h : CoreEffect s t) :
    t.status = s.status ∨ s.status = .busy ∧ (t.status = .done ∨ t.status = .error) := by
  cases h with
  | idle => exact .inl rfl
  | badHeader hh => exact .inr ⟨hh.1, .inr rfl⟩
  | truncated hl => exact .inr ⟨hl.1, .inr rfl⟩
  | header hd hh =>
    obtain he | he | ⟨-, -, he⟩ := acceptHeader_cases hd s <;> rw [he]
    · exact .inr ⟨hh.1, .inr rfl⟩
    · exact .inr ⟨hh.1, .inr rfl⟩
    · rw [initDecode_status]
      split
      · exact .inr ⟨hh.1, .inl rfl⟩
      · exact .inl rfl
  | pixel v _ hl hv ht =>
    obtain ⟨px, run, pos, cache, rfl⟩ := hv.frame
    obtain ⟨-, rfl⟩ := finishPixel_next_iff.1 ht
    rw [advanceCounters_status]
    split
    · exact .inr ⟨hl.1, .inl rfl⟩
    · exact .inl rfl

/-- Settles O54: the core's case by `CoreEffect.status`; of the host's actions only START and reset change STATUS. -/
theorem statusTransitions : Obligations.StatusTransitions := by
  intro s t h hne
  obtain ⟨u, ⟨hu, he⟩ | ⟨r, hu, he⟩⟩ := step_effect h
  all_goals
    obtain ⟨l, hul⟩ := hu.exists_agenda
    have hs : u.status = s.status := by rw [hul]
    rw [← hs] at hne ⊢
  · obtain hsame | hend := he.status
    · exact absurd hsame hne
    · exact .inr (.inl ⟨u, hu, hend⟩)
  · cases he with
    | start v hv hb => exact .inl ⟨u, v, hu, hv, hb, rfl⟩
    | reset => exact .inr (.inr ⟨u, hu, rfl⟩)
    | answer => exact absurd rfl hne
    | inLen => exact absurd rfl hne
    | inWrite => exact absurd rfl hne
    | set => exact absurd rfl hne

/-- R33: of the core's turns the header step alone writes the header registers. -/
theorem CoreEffect.headerRegs {s t : State} (h : CoreEffect s t) : Claims.InHeader s ∨
    (t.width = s.width ∧ t.height = s.height ∧ t.channels = s.channels ∧ t.colorspace = s.colorspace) := by
  cases h with
  | idle => exact .inr ⟨rfl, rfl, rfl, rfl⟩
  | badHeader hh => exact .inl hh
  | header _ hh => exact .inl hh
  | truncated => exact .inr ⟨rfl, rfl, rfl, rfl⟩
  | pixel v _ _ hv ht =>
    obtain ⟨px, run, pos, cache, rfl⟩ := hv.frame
    obtain ⟨-, rfl⟩ := finishPixel_next_iff.1 ht
    exact .inr ⟨rfl, rfl, rfl, rfl⟩

theorem not_turnOf_reset {s u : State} (h : Claims.NotReset s) : ¬TurnOf s (.host .powerOnReset) u := by
  rintro (⟨-, hτ, -⟩ | ⟨rest, ha, -⟩)
  · cases hτ
  · exact h rest ha

/-- Settles O55: the core's case by `CoreEffect.headerRegs`; no host action but reset touches them. -/
theorem onlyTheHeaderStepWritesTheHeaderRegisters : Obligations.OnlyTheHeaderStepWritesTheHeaderRegisters := by
  intro s t h hnr
  obtain ⟨u, ⟨hu, he⟩ | ⟨r, hu, he⟩⟩ := step_effect h
  · obtain hh | hkeep := he.headerRegs
    · exact .inl ⟨u, hu, hh⟩
    · obtain ⟨l, rfl⟩ := hu.exists_agenda
      exact .inr hkeep
  · cases he with
    | reset => exact absurd hu (not_turnOf_reset hnr)
    | _ =>
      obtain ⟨l, rfl⟩ := hu.exists_agenda
      exact .inr ⟨rfl, rfl, rfl, rfl⟩

/-- R51, R65: the core never writes the input. -/
theorem CoreEffect.input {s t : State} (h : CoreEffect s t) : t.inLen = s.inLen ∧ t.inMem = s.inMem := by
  cases h with
  | idle => exact ⟨rfl, rfl⟩
  | badHeader => exact ⟨rfl, rfl⟩
  | truncated => exact ⟨rfl, rfl⟩
  | header hd => obtain he | he | ⟨-, -, he⟩ := acceptHeader_cases hd s <;> (rw [he]; exact ⟨rfl, rfl⟩)
  | pixel v _ _ hv ht =>
    obtain ⟨px, run, pos, cache, rfl⟩ := hv.frame
    obtain ⟨-, rfl⟩ := finishPixel_next_iff.1 ht
    exact ⟨rfl, rfl⟩

/-- R31, R236: while BUSY no host action but reset writes the input. -/
theorem HostEffect.input {s t : State} {r : HostReq} (h : HostEffect s r t) (hb : s.status = .busy)
    (hr : r ≠ .powerOnReset) : t.inLen = s.inLen ∧ t.inMem = s.inMem := by
  cases h with
  | answer => exact ⟨rfl, rfl⟩
  | set => exact ⟨rfl, rfl⟩
  | start _ _ hs => exact absurd hb hs
  | inLen _ _ hs => exact absurd hb hs
  | inWrite _ _ _ hs => exact absurd hb hs
  | reset => exact absurd rfl hr

/-- One step has one turn. -/
theorem TurnOf.unique {s u u' : State} {τ τ' : Turn} (h : TurnOf s τ u) (h' : TurnOf s τ' u') : τ = τ' := by
  obtain ⟨ha, rfl, -⟩ | ⟨rest, ha, -⟩ := h <;> obtain ⟨ha', rfl, -⟩ | ⟨rest', ha', -⟩ := h'
  · rfl
  · cases ha.symm.trans ha'
  · cases ha.symm.trans ha'
  · cases ha.symm.trans ha'; rfl

/-- Settles O56: the two input lemmas; a core turn in the premise excludes the host's case. -/
theorem inputCannotChangeUnderADecode : Obligations.InputCannotChangeUnderADecode := by
  intro s t h hwhen
  have key : ∃ u : State, (∃ l, u = { s with agenda := l }) ∧ t.inLen = u.inLen ∧ t.inMem = u.inMem := by
    obtain ⟨u, ⟨hu, he⟩ | ⟨r, hu, he⟩⟩ := step_effect h
    · exact ⟨u, hu.exists_agenda, he.input⟩
    · refine ⟨u, hu.exists_agenda, ?_⟩
      obtain ⟨hb, hnr⟩ | ⟨u', hu'⟩ := hwhen
      · have hbu : u.status = .busy := by rw [hu.eq]; exact hb
        refine he.input hbu ?_
        rintro rfl
        exact not_turnOf_reset hnr hu
      · cases hu.unique hu'
  obtain ⟨u, ⟨l, rfl⟩, hlen, hmem⟩ := key
  exact ⟨hlen, fun a => by rw [hmem]⟩

end Sys2Proof.Machine

/-! ### The invariant -/

namespace Sys2Proof.Machine

theorem Inv.err_none {s : State} (h : Inv s) (hs : s.status ≠ .error) : s.err = .none :=
  not_not.1 fun hne => hs (h.err.1 hne)

section
variable {c : Prop} [Decidable c] {s : State} (hb : s.status = .busy)
include hb

/-- Completion leads a BUSY core to DONE exactly when its condition holds, and never to ERROR. -/
theorem completeWhen_done_iff : (completeWhen c s).status = .done ↔ c := by
  by_cases hc : c <;> simp [hc, hb]

theorem completeWhen_busy_iff : (completeWhen c s).status = .busy ↔ ¬c := by
  by_cases hc : c <;> simp [hc, hb]

theorem completeWhen_ne_error : (completeWhen c s).status ≠ .error := by
  by_cases hc : c <;> simp [hc, hb]

end

theorem Inv.err_iff_of_busy {s t : State} (h : Inv s) (hs : s.status = .busy) (he : t.err = s.err)
    (ht : t.status ≠ .error) : t.err ≠ .none ↔ t.status = .error := by
  have : t.err = .none := by rw [he, h.err_none (by rw [hs]; decide)]
  exact iff_of_false (not_not.2 this) ht

/-- The invariant looks at no field of the model's own but the sizes. -/
theorem Inv.bookkeeping {s : State} (h : Inv s) (l : List Turn) (n : Nat) (a : Option Answer) :
    Inv { s with agenda := l, freeCtr := n, answer := a } where
  legal := h.legal
  inWf := h.inWf
  outWf := h.outWf
  inWithin := h.inWithin
  outWithin := h.outWithin
  inLen := h.inLen
  err := h.err
  loop hb hp :=
    let k := h.loop hb hp
    ⟨⟨k.image.channels, k.image.fits⟩, k.total, k.left, k.outpos, k.posLow, k.posHigh, k.run, k.cache, k.emitted⟩
  done hd := ⟨⟨(h.done hd).image.channels, (h.done hd).image.fits⟩, (h.done hd).complete⟩

/-- Error entry leaves OUT empty and every clause about a decode without a premise. -/
theorem Inv.raise {s : State} {e : ErrKind} (h : Inv s) (he : e ≠ .none) : Inv (raise e s) where
  legal := h.legal
  inWf := h.inWf
  outWf := .nil
  inWithin := h.inWithin
  outWithin := within_nil _
  inLen := h.inLen
  err := iff_of_true he rfl
  loop := fun hb => by cases hb
  done := fun hd => by cases hd

/-- In the header step no clause looks at the header registers or NPIX. -/
theorem Inv.setHeader {s : State} (h : Inv s) (hh : Claims.InHeader s) (hd : Header) (n : BitVec 64) :
    Inv { setHeader hd s with npix := n } where
  legal := h.legal
  inWf := h.inWf
  outWf := h.outWf
  inWithin := h.inWithin
  outWithin := h.outWithin
  inLen := h.inLen
  err := h.err
  loop := fun _ hp => by cases hh.2.symm.trans hp
  done := fun hdone => by cases hh.1.symm.trans hdone

/-- A good header begins a pixel loop that meets its invariant, or an empty image is complete. -/
theorem Inv.initDecode {s : State} {hd : Header} (h : Inv s) (hh : Claims.InHeader s) (hl : 14 ≤ s.inLen.toNat)
    (hch : hd.channels = 3 ∨ hd.channels = 4)
    (hcap : hd.width.toNat * hd.height.toNat * hd.channels.toNat ≤ s.params.outCapacity) :
    Inv (initDecode (headerSet hd s)) where
  legal := h.legal
  inWf := h.inWf
  outWf := h.outWf
  inWithin := h.inWithin
  outWithin := h.outWithin
  inLen := h.inLen
  err := h.err_iff_of_busy hh.1 rfl (completeWhen_ne_error hh.1)
  loop hb _ := by
    have hne : pixelTotal hd.width hd.height ≠ 0 := (completeWhen_busy_iff hh.1).1 hb
    exact
      { image := ⟨hch, hcap⟩
        total := pixelTotal_toNat _ _
        left := Nat.pos_of_ne_zero fun hz => hne (BitVec.eq_of_toNat_eq hz)
        outpos := (Nat.zero_mul _).symm
        posLow := Nat.le_refl 14
        posHigh := hl
        run := Nat.zero_le _
        cache := cacheZero_inv
        emitted := fun a ha => absurd ha (Nat.not_lt_zero a) }
  done hdone := by
    have hz : pixelTotal hd.width hd.height = 0 := (completeWhen_done_iff hh.1).1 hdone
    have hsize : rasterSize (Machine.initDecode (headerSet hd s)) = 0 := by
      show hd.width.toNat * hd.height.toNat * hd.channels.toNat = 0
      rw [← pixelTotal_toNat, hz]; exact Nat.zero_mul _
    refine ⟨⟨hch, hcap⟩, fun a ha => absurd ha ?_⟩
    rw [hsize]
    exact Nat.not_lt_zero a

theorem Inv.acceptHeader {s : State} {hd : Header} (h : Inv s) (hh : Claims.InHeader s) (hl : 14 ≤ s.inLen.toNat) :
    Inv (acceptHeader hd s) := by
  obtain he | he | ⟨hch, hcap, he⟩ := acceptHeader_cases hd s <;> rw [he]
  · exact (h.setHeader hh hd s.npix).raise (by decide)
  · exact (h.setHeader hh hd _).raise (by decide)
  · exact h.initDecode hh hl hch hcap

/-- A fetched opcode is in range and lies below IN_LEN. -/
theorem fetch_spec {s : State} {i : Instr} (h : fetch s = .ok (some i)) :
    i.WellFormed ∧ s.pos.toNat + i.length ≤ s.inLen.toNat := by
  obtain ⟨b0, bytes, rest, hb0, hlen, hbytes, hd⟩ := fetch_some h
  cases bytes with
  | nil => cases hd
  | cons b more =>
    have hb : inRead s s.pos.toNat = .ok b := (inReadBytes_ok_iff.1 hbytes).2 0 b rfl
    cases hb0.symm.trans hb
    obtain ⟨hw, hl, -⟩ := decode_spec hd
    exact ⟨hw, by omega⟩

/-- What the opcode or the run continuation leaves before the emission is within the bounds of R27 to R29. -/
theorem Readied.bounds {s v : State} (h : Readied s v) (hi : LoopInv s) :
    14 ≤ v.pos.toNat ∧ v.pos.toNat ≤ s.inLen.toNat ∧ v.run.toNat ≤ 8223 ∧ CacheInv v.cache := by
  have hlow := hi.posLow
  have hhigh := hi.posHigh
  have hrun := hi.run
  obtain ⟨-, i, hf, hv⟩ | ⟨hr, rfl⟩ := h
  · obtain ⟨hw, hlen⟩ := fetch_spec hf
    have hpos : v.pos.toNat = s.pos.toNat + i.length := by
      have := s.inLen.isLt
      rw [exec_pos hv, BitVec.toNat_add, BitVec.toNat_ofNat]; omega
    exact ⟨by omega, by omega, exec_run_le hv hw hrun, exec_cacheInv hv hi.cache⟩
  · have hdec : (s.run - 1).toNat ≤ 8223 := by bv_omega
    exact ⟨hlow, hhigh, hdec, hi.cache⟩

theorem Inv.readied {s v : State} (h : Inv s) (hl : Claims.InLoop s) (hv : Readied s v) : Inv v := by
  have hi := h.loop hl.1 hl.2
  obtain ⟨hlow, hhigh, hrun, hcache⟩ := hv.bounds hi
  obtain ⟨px, run, pos, cache, rfl⟩ := hv.frame
  exact
    { legal := h.legal, inWf := h.inWf, outWf := h.outWf, inWithin := h.inWithin, outWithin := h.outWithin
      inLen := h.inLen, err := h.err
      loop := fun _ _ => ⟨⟨hi.image.channels, hi.image.fits⟩, hi.total, hi.left, hi.outpos, hlow, hhigh, hrun, hcache,
        hi.emitted⟩
      done := fun hd => by cases hl.1.symm.trans hd }

theorem LoopInv.pixcnt_succ {s : State} (h : LoopInv s) : (s.pixcnt + 1).toNat = s.pixcnt.toNat + 1 := by
  have := h.left
  have := s.npix.isLt
  bv_omega

/-- The next OUTPOS is the next multiple of CHANNELS: no counter wraps. -/
theorem LoopInv.outpos_succ {s : State} (h : LoopInv s) :
    (s.outpos + s.channels.zeroExtend 66).toNat = (s.pixcnt.toNat + 1) * s.channels.toNat := by
  have hout := h.outpos
  have hleft := h.left
  have hn := s.npix.isLt
  rw [BitVec.toNat_add, BitVec.toNat_setWidth, hout]
  obtain hch | hch := h.image.channels <;>
  · simp only [hch, BitVec.reduceToNat]
    omega

/-- The emission and the counters keep the invariant: one more pixel is in OUT, and with the last one the raster is. -/
theorem Inv.finishPixel {v t : State} (h : Inv v) (hl : Claims.InLoop v) (ht : finishPixel v = .next t) : Inv t := by
  obtain ⟨hfit, rfl⟩ := finishPixel_next_iff.1 ht
  have hi := h.loop hl.1 hl.2
  have hch := hi.image.channels
  have hfilled : Filled (Memory.writeBytes v.outMem v.outpos.toNat (storedBytes v.channels v.px))
      ((v.pixcnt.toNat + 1) * v.channels.toNat) := by
    have := hi.emitted.writeBytes (storedBytes v.channels v.px)
    rwa [storedBytes_length hch, show v.outpos.toNat + v.channels.toNat = (v.pixcnt.toNat + 1) * v.channels.toNat by
      rw [hi.outpos, Nat.succ_mul]] at this
  exact
    { legal := h.legal
      inWf := h.inWf
      outWf := Memory.writeBytes_wf h.outWf _ _
      inWithin := h.inWithin
      outWithin := h.outWithin.writeBytes hfit
      inLen := h.inLen
      err := h.err_iff_of_busy hl.1 rfl (completeWhen_ne_error hl.1)
      loop := fun hb _ => by
        have hne : v.pixcnt + 1 ≠ v.npix := (completeWhen_busy_iff hl.1).1 hb
        have hleft : (v.pixcnt + 1).toNat < v.npix.toNat := by
          have hne' := BitVec.toNat_ne.1 hne
          have := hi.left
          rw [hi.pixcnt_succ] at hne' ⊢
          omega
        exact
          { image := ⟨hch, hi.image.fits⟩
            total := hi.total
            left := hleft
            outpos := hi.outpos_succ.trans (by rw [advanceCounters_pixcnt, hi.pixcnt_succ]; rfl)
            posLow := hi.posLow
            posHigh := hi.posHigh
            run := hi.run
            cache := hi.cache
            emitted := by rw [advanceCounters_outpos, hi.outpos_succ]; exact hfilled }
      done := fun hd => by
        have hlast : v.pixcnt + 1 = v.npix := (completeWhen_done_iff hl.1).1 hd
        have hsize : rasterSize v = (v.pixcnt.toNat + 1) * v.channels.toNat := by
          rw [← hi.pixcnt_succ, hlast, hi.total]; rfl
        exact ⟨⟨hch, hi.image.fits⟩, hfilled.mono (Nat.le_of_eq hsize)⟩ }

theorem CoreEffect.inv {s t : State} (he : CoreEffect s t) (h : Inv s) : Inv t := by
  cases he with
  | idle => exact h
  | badHeader => exact h.raise (by decide)
  | header _ hh hl => exact h.acceptHeader hh hl
  | truncated => exact h.raise (by decide)
  | pixel v _ hl hv ht =>
    have hlv : Claims.InLoop v := by obtain ⟨px, run, pos, cache, rfl⟩ := hv.frame; exact hl
    exact (h.readied hl hv).finishPixel hlv ht

theorem HostEffect.inv {s t : State} {r : HostReq} (he : HostEffect s r t) (h : Inv s) : Inv t := by
  cases he with
  | answer r a => exact h.bookkeeping s.agenda s.freeCtr a
  | reset => exact (inv_resetWith h.legal).bookkeeping s.agenda s.freeCtr none
  | start v _ hs =>
    exact
      { legal := h.legal, inWf := h.inWf, outWf := h.outWf, inWithin := h.inWithin, outWithin := h.outWithin
        inLen := h.inLen
        err := iff_of_false (not_not.2 rfl) nofun
        loop := fun _ hp => by cases hp
        done := fun hd => by cases hd }
  | inLen v hv hs =>
    exact
      { legal := h.legal, inWf := h.inWf, outWf := h.outWf, inWithin := h.inWithin, outWithin := h.outWithin
        inLen := hv
        err := h.err
        loop := fun hb _ => absurd hb hs
        done := fun hd => ⟨⟨(h.done hd).image.channels, (h.done hd).image.fits⟩, (h.done hd).complete⟩ }
  | inWrite a v ha hs =>
    exact
      { legal := h.legal, outWf := h.outWf, outWithin := h.outWithin
        inWf := Memory.write_wf h.inWf a v
        inWithin := h.inWithin.write ha
        inLen := h.inLen
        err := h.err
        loop := fun hb _ => absurd hb hs
        done := fun hd => ⟨⟨(h.done hd).image.channels, (h.done hd).image.fits⟩, (h.done hd).complete⟩ }
  | set x y p hs hfit =>
    exact
      { legal := h.legal, inWf := h.inWf, inWithin := h.inWithin
        outWf := Memory.writeBytes_wf h.outWf _ _
        outWithin := h.outWithin.writeBytes hfit
        inLen := h.inLen
        err := h.err
        loop := fun hb _ => by cases hs.symm.trans hb
        done := fun hd => ⟨⟨(h.done hd).image.channels, (h.done hd).image.fits⟩, (h.done hd).complete.keep _ _⟩ }

/-- Settles O50: the core's turn and every host action keep the invariant, in the state with the agenda's head taken
off. -/
theorem everyStepKeepsTheInvariant : Obligations.EveryStepKeepsTheInvariant := by
  intro s t h hst
  obtain ⟨u, ⟨hu, he⟩ | ⟨r, hu, he⟩⟩ := step_effect hst
  · exact he.inv (hu.inv h)
  · exact he.inv (hu.inv h)

end Sys2Proof.Machine

/-! ### The header step, read and written by cases -/

namespace Sys2Proof.Machine

theorem inReadBE32_ok_iff {s : State} {a : Nat} {w : BitVec 32} : inReadBE32 s a = .ok w ↔
    ∃ b0 b1 b2 b3, inRead s a = .ok b0 ∧ inRead s (a + 1) = .ok b1 ∧ inRead s (a + 2) = .ok b2 ∧
      inRead s (a + 3) = .ok b3 ∧ w = be32 b0 b1 b2 b3 := by
  simp only [inReadBE32, bind, Except.bind]
  cases inRead s a <;> cases inRead s (a + 1) <;> cases inRead s (a + 2) <;> cases inRead s (a + 3) <;> simp [eq_comm]

theorem readHeader_ok_iff {s : State} {hd : Header} : readHeader s = .ok hd ↔
    inReadBE32 s 4 = .ok hd.width ∧ inReadBE32 s 8 = .ok hd.height ∧ inRead s 12 = .ok hd.channels ∧
      inRead s 13 = .ok hd.colorspace := by
  obtain ⟨w, h, ch, cs⟩ := hd
  simp only [readHeader, bind, Except.bind]
  cases inReadBE32 s 4 <;> cases inReadBE32 s 8 <;> cases inRead s 12 <;> cases inRead s 13 <;> simp

/-- What the header step answers, and when: its checks in the order of R206. -/
theorem headerStep_next_iff {s t : State} : headerStep s = .next t ↔
    (s.inLen.toNat < 14 ∧ t = raise .invalidFormat s) ∨
    (14 ≤ s.inLen.toNat ∧ ∃ m, inReadBytes s 0 4 = .ok m ∧
      ((m ≠ magic ∧ t = raise .invalidFormat s) ∨
       (m = magic ∧ ∃ hd, readHeader s = .ok hd ∧ t = acceptHeader hd s))) := by
  have havail : inAvail s 0 14 = true ↔ 14 ≤ s.inLen.toNat := by rw [inAvail_iff, Nat.zero_add]
  by_cases hl : 14 ≤ s.inLen.toNat
  · simp only [headerStep, if_pos (havail.2 hl), Nat.not_lt.2 hl, hl, false_and, false_or, true_and]
    cases inReadBytes s 0 4 with
    | error f => simp
    | ok m =>
      by_cases hm : m = magic
      · cases readHeader s <;> simp [hm, eq_comm]
      · simp [hm, eq_comm]
  · simp [headerStep, havail, hl, Nat.not_le.1 hl, eq_comm]

/-! ### COLORSPACE (R121) -/

/-- `s` with another COLORSPACE and input memory: what `Claims.SameButColorspace` leaves open. -/
def recoloured (s : State) (c : Byte) (m : List Host.Cell) : State := { s with colorspace := c, inMem := m }

/-- A step that leaves IN alone in both states keeps their relation, whatever COLORSPACE becomes. -/
theorem sameButColorspace_recoloured {s t : State} {c c' : Byte} {m : List Host.Cell}
    (h : Claims.SameButColorspace s (recoloured s c m)) (ht : t.inMem = s.inMem) :
    Claims.SameButColorspace t (recoloured t c' m) := by
  obtain ⟨-, hother, h13⟩ := h
  refine ⟨rfl, ?_, ?_⟩
  · rw [ht]; exact hother
  · rw [ht]; exact h13

theorem inRead_recoloured {s : State} {c : Byte} {m : List Host.Cell}
    (h : Claims.SameButColorspace s (recoloured s c m)) {a : Nat} (ha : a ≠ 13) :
    inRead (recoloured s c m) a = inRead s a := by
  have hread : Memory.read (recoloured s c m).inMem a = Memory.read s.inMem a := h.2.1 a ha
  simp only [inRead, hread]; rfl

theorem inReadBE32_recoloured {s : State} {c : Byte} {m : List Host.Cell}
    (h : Claims.SameButColorspace s (recoloured s c m)) {a : Nat} (ha : a + 3 < 13) :
    inReadBE32 (recoloured s c m) a = inReadBE32 s a := by
  simp only [inReadBE32, inRead_recoloured h (show a ≠ 13 by omega), inRead_recoloured h (show a + 1 ≠ 13 by omega),
    inRead_recoloured h (show a + 2 ≠ 13 by omega), inRead_recoloured h (show a + 3 ≠ 13 by omega)]

/-- The header's fields are the same but for COLORSPACE. -/
theorem readHeader_recoloured {s : State} {c : Byte} {m : List Host.Cell} {hd : Header}
    (h : Claims.SameButColorspace s (recoloured s c m)) (hr : readHeader s = .ok hd) :
    ∃ c', readHeader (recoloured s c m) = .ok { hd with colorspace := c' } := by
  obtain ⟨hw, hh, hch, hcs⟩ := readHeader_ok_iff.1 hr
  obtain ⟨hcap, hv⟩ := inRead_ok_iff.1 hcs
  obtain ⟨c', hc'⟩ := Option.isSome_iff_exists.1 (h.2.2.trans (by rw [hv]; rfl))
  exact ⟨c', readHeader_ok_iff.2
    ⟨(inReadBE32_recoloured h (by decide)).trans hw, (inReadBE32_recoloured h (by decide)).trans hh,
      (inRead_recoloured h (by decide)).trans hch, inRead_ok_iff.2 ⟨hcap, hc'⟩⟩⟩

/-- No check of the header looks at COLORSPACE. -/
theorem acceptHeader_recoloured (s : State) (c c' : Byte) (m : List Host.Cell) (hd : Header) :
    acceptHeader { hd with colorspace := c' } (recoloured s c m) = recoloured (acceptHeader hd s) c' m := by
  have hp : (recoloured s c m).params = s.params := rfl
  simp only [acceptHeader, hp]
  split
  · rfl
  · split <;> rfl

section
variable {s t : State} {c : Byte} {m : List Host.Cell} (h : Claims.SameButColorspace s (recoloured s c m))
include h

theorem headerStep_recoloured (ht : headerStep s = .next t) :
    ∃ c', headerStep (recoloured s c m) = .next (recoloured t c' m) := by
  obtain ⟨hl, rfl⟩ | ⟨hl, bs, hbs, hrest⟩ := headerStep_next_iff.1 ht
  · exact ⟨c, headerStep_next_iff.2 (.inl ⟨hl, rfl⟩)⟩
  have hbs' : inReadBytes (recoloured s c m) 0 4 = .ok bs :=
    (inReadBytes_congr fun x _ hx => inRead_recoloured h (by omega)).trans hbs
  obtain ⟨hm, rfl⟩ | ⟨hm, hd, hr, rfl⟩ := hrest
  · exact ⟨c, headerStep_next_iff.2 (.inr ⟨hl, bs, hbs', .inl ⟨hm, rfl⟩⟩)⟩
  · obtain ⟨c', hr'⟩ := readHeader_recoloured h hr
    exact ⟨c', headerStep_next_iff.2
      (.inr ⟨hl, bs, hbs', .inr ⟨hm, _, hr', (acceptHeader_recoloured s c c' m hd).symm⟩⟩)⟩

/-- The pixel loop reads the input from POS on, which is past the header. -/
theorem coreTurn_inLoop_recoloured (hl : Claims.InLoop s) (hpos : 14 ≤ s.pos.toNat) (ht : coreTurn s = .next t) :
    coreTurn (recoloured s c m) = .next (recoloured t c m) := by
  have hl' : Claims.InLoop (recoloured s c m) := hl
  have hf : fetch (recoloured s c m) = fetch s :=
    fetch_congr rfl rfl fun a ha => inRead_recoloured h (by omega)
  obtain ⟨hr, hn, rfl⟩ | ⟨v, hv, hfin⟩ := coreTurn_inLoop_cases hl ht
  · exact coreTurn_of_truncated hl' hr (hf.trans hn)
  · have hv' : Readied (recoloured s c m) (withOpcodeRegs (recoloured s c m) v) := hv.congr (recoloured s c m) hf
    rw [coreTurn_of_readied hl' hv']
    obtain ⟨px, run, pos, cache, rfl⟩ := hv.frame
    obtain ⟨hfit, rfl⟩ := finishPixel_next_iff.1 hfin
    exact finishPixel_next_iff.2 ⟨hfit, rfl⟩

theorem coreTurn_recoloured (hi : Inv s) (ht : coreTurn s = .next t) :
    ∃ c', coreTurn (recoloured s c m) = .next (recoloured t c' m) := by
  by_cases hs : s.status = .busy
  · cases hp : s.phase with
    | header =>
      rw [coreTurn_of_inHeader ⟨hs, hp⟩] at ht
      rw [coreTurn_of_inHeader (s := recoloured s c m) ⟨hs, hp⟩]
      exact headerStep_recoloured h ht
    | pixels => exact ⟨c, coreTurn_inLoop_recoloured h ⟨hs, hp⟩ (hi.loop hs hp).posLow ht⟩
  · rw [coreTurn_of_not_busy hs] at ht
    cases ht
    exact ⟨c, coreTurn_of_not_busy hs⟩

end

/-- GET looks neither at COLORSPACE nor at IN. -/
theorem hostGet_recoloured {s t : State} {x y : BitVec 32} (c : Byte) (m : List Host.Cell)
    (h : hostGet x y s = .next t) :
    hostGet x y (recoloured s c m) = .next (recoloured t c m) ∧ t.inMem = s.inMem := by
  obtain ⟨hs, ⟨hb, p, hp, rfl⟩ | ⟨hb, rfl⟩⟩ := hostGet_next_iff.1 h
  · exact ⟨hostGet_next_iff.2 ⟨hs, .inl ⟨hb, p, hp, rfl⟩⟩, rfl⟩
  · exact ⟨hostGet_next_iff.2 ⟨hs, .inr ⟨hb, rfl⟩⟩, rfl⟩

/-- Nor does SET. -/
theorem hostSet_recoloured {s t : State} {x y : BitVec 32} {p : Pixel} (c : Byte) (m : List Host.Cell)
    (h : hostSet x y p s = .next t) :
    hostSet x y p (recoloured s c m) = .next (recoloured t c m) ∧ t.inMem = s.inMem := by
  obtain ⟨hs, ⟨hb, hfit, rfl⟩ | ⟨hb, rfl⟩⟩ := hostSet_next_iff.1 h
  · exact ⟨hostSet_next_iff.2 ⟨hs, .inl ⟨hb, hfit, rfl⟩⟩, rfl⟩
  · exact ⟨hostSet_next_iff.2 ⟨hs, .inr ⟨hb, rfl⟩⟩, rfl⟩

theorem TurnOf.recoloured {s u : State} {τ : Turn} (h : TurnOf s τ u) (c : Byte) (m : List Host.Cell) :
    TurnOf (recoloured s c m) τ (recoloured u c m) := by
  obtain ⟨ha, hτ, rfl⟩ | ⟨rest, ha, rfl⟩ := h
  · exact .inl ⟨ha, hτ, rfl⟩
  · exact .inr ⟨rest, ha, rfl⟩

/-- Settles O29: the header step carries byte 13 into COLORSPACE, and nothing else reads either of them. -/
theorem colorspaceIsNotInterpreted : Obligations.ColorspaceIsNotInterpreted := by
  intro s s' u t τ hi hsame hu hτ ht
  obtain ⟨c, m, rfl⟩ : ∃ c m, s' = recoloured s c m := ⟨_, _, hsame.1⟩
  have hu' := hu.recoloured c m
  have hmem : u.inMem = s.inMem := by rw [hu.eq]
  have hsameu : Claims.SameButColorspace u (recoloured u c m) := sameButColorspace_recoloured hsame hmem
  obtain rfl | ⟨x, y, rfl⟩ | ⟨x, y, p, rfl⟩ := hτ
  · rw [step_core hu] at ht
    obtain ⟨c', ht'⟩ := coreTurn_recoloured hsameu (hu.inv hi) ht
    exact ⟨_, (step_core hu').trans ht', sameButColorspace_recoloured hsameu (coreTurn_effect ht).input.2⟩
  · rw [step_host hu] at ht
    obtain ⟨ht', hkeep⟩ := hostGet_recoloured c m ht
    exact ⟨_, (step_host hu').trans ht', sameButColorspace_recoloured hsameu hkeep⟩
  · rw [step_host hu] at ht
    obtain ⟨ht', hkeep⟩ := hostSet_recoloured c m ht
    exact ⟨_, (step_host hu').trans ht', sameButColorspace_recoloured hsameu hkeep⟩

end Sys2Proof.Machine

/-! ### A good header (R104 to R106) -/

namespace Sys2Proof.Machine

/-- Bytes that stand in the input stand there without the ones after them. -/
theorem inputHolds_left {s : State} {a : Nat} {xs ys : List Byte} (h : Claims.InputHolds s a (xs ++ ys)) :
    Claims.InputHolds s a xs := by
  obtain ⟨hcap, hread⟩ := h
  rw [List.length_append] at hcap
  refine ⟨by omega, fun j v hj => hread j v ?_⟩
  rw [List.getElem?_append_left (List.getElem?_eq_some_iff.1 hj).1, hj]

/-- The header's fields are read big-endian, from the bytes at 4 to 13 (R52, R54). -/
theorem readHeader_of_inputHolds {s : State} {m0 m1 m2 m3 w3 w2 w1 w0 h3 h2 h1 h0 ch cs : Byte}
    (h : Claims.InputHolds s 0 [m0, m1, m2, m3, w3, w2, w1, w0, h3, h2, h1, h0, ch, cs]) :
    readHeader s = .ok ⟨be32 w3 w2 w1 w0, be32 h3 h2 h1 h0, ch, cs⟩ := by
  have byte (j : Nat) {v : Byte} (hj : [m0, m1, m2, m3, w3, w2, w1, w0, h3, h2, h1, h0, ch, cs][j]? = some v) :
      inRead s j = .ok v := by
    rw [← Nat.zero_add j]; exact inRead_of_inputHolds h hj
  refine readHeader_ok_iff.2 ⟨inReadBE32_ok_iff.2 ?_, inReadBE32_ok_iff.2 ?_, byte 12 rfl, byte 13 rfl⟩
  · exact ⟨w3, w2, w1, w0, byte 4 rfl, byte 5 rfl, byte 6 rfl, byte 7 rfl, rfl⟩
  · exact ⟨h3, h2, h1, h0, byte 8 rfl, byte 9 rfl, byte 10 rfl, byte 11 rfl, rfl⟩

/-- A header step that finds the magic goes on to judge the header's fields. -/
theorem coreTurn_of_inputHolds {s : State} {w3 w2 w1 w0 h3 h2 h1 h0 ch cs : Byte} (hh : Claims.InHeader s)
    (hl : 14 ≤ s.inLen.toNat)
    (h : Claims.InputHolds s 0 [0x71, 0x6F, 0x69, 0x66, w3, w2, w1, w0, h3, h2, h1, h0, ch, cs]) :
    coreTurn s = .next (acceptHeader ⟨be32 w3 w2 w1 w0, be32 h3 h2 h1 h0, ch, cs⟩ s) := by
  have hmagic : Claims.InputHolds s 0 magic := inputHolds_left (ys := [w3, w2, w1, w0, h3, h2, h1, h0, ch, cs]) h
  rw [coreTurn_of_inHeader hh]
  exact headerStep_next_iff.2
    (.inr ⟨hl, magic, inReadBytes_of_inputHolds hmagic, .inr ⟨rfl, _, readHeader_of_inputHolds h, rfl⟩⟩)

theorem be32_toNat_eq_beValue (b0 b1 b2 b3 : Byte) : (be32 b0 b1 b2 b3).toNat = Claims.beValue b0 b1 b2 b3 :=
  be32_toNat b0 b1 b2 b3

theorem channels_of_toNat {ch : Byte} (h : ch.toNat = 3 ∨ ch.toNat = 4) : ch = 3 ∨ ch = 4 :=
  h.imp BitVec.eq_of_toNat_eq BitVec.eq_of_toNat_eq

/-- Settles O35: the header is accepted, and `initDecode` sets what R106 lists. -/
theorem goodHeaderStartsThePixelLoop : Obligations.GoodHeaderStartsThePixelLoop := by
  intro s u w3 w2 w1 w0 h3 h2 h1 h0 ch cs hu hh hl hb hch hcap
  rw [← be32_toNat_eq_beValue w3 w2 w1 w0, ← be32_toNat_eq_beValue h3 h2 h1 h0] at hcap ⊢
  have hstep := (step_core hu).trans (coreTurn_of_inputHolds hh hl hb)
  rw [acceptHeader_good (channels_of_toNat hch) hcap] at hstep
  refine ⟨_, hstep, rfl, rfl, pixelTotal_toNat _ _, cacheZero_get, fun hz => if_pos hz, fun hz => ?_, rfl⟩
  exact ⟨(if_neg hz).trans hh.1, if_neg hz, if_neg hz⟩

end Sys2Proof.Machine

/-! ### The host's registers (R31 to R35) and the input port (R58) -/

namespace Sys2Proof.Machine

/-- The numbers of the result registers. -/
theorem regOfNumber_result {n : Nat} (h4 : 4 ≤ n) (h7 : n ≤ 7) :
    ∃ r, regOfNumber n = some r ∧ r.isResult = true := by
  obtain rfl | rfl | rfl | rfl : n = 4 ∨ n = 5 ∨ n = 6 ∨ n = 7 := by omega
  all_goals exact ⟨_, rfl, rfl⟩

theorem regOfNumber_above {n : Nat} (h : 8 ≤ n) : regOfNumber n = none := by
  obtain ⟨k, rfl⟩ := Nat.exists_eq_add_of_le' h
  rfl

theorem step_readReg {s u : State} {n : Nat} (hu : TurnOf s (.host (.readReg n)) u) : step s = hostReadReg n u :=
  step_host hu

section
variable {n : Nat} {r : Reg} {s : State} (hr : regOfNumber n = some r)
include hr

theorem hostReadReg_control (hc : r.isResult = false) :
    hostReadReg n s = .next { s with answer := some (.value (regValue s r)) } := by
  simp [hostReadReg, answered, hr, hc]

theorem hostReadReg_done (hs : s.status = .done) :
    hostReadReg n s = .next { s with answer := some (.value (regValue s r)) } := by
  simp [hostReadReg, answered, hr, hs]

theorem hostReadReg_busy (hc : r.isResult = true) (hs : s.status = .busy) :
    hostReadReg n s = .refused (.resultRegisterWhileBusy n) := by
  simp [hostReadReg, hr, hc, hs]

theorem hostReadReg_noValue (hc : r.isResult = true) (hs : s.status = .idle ∨ s.status = .error) :
    hostReadReg n s = .fault (.resultRegisterNoValue n) := by
  obtain hs | hs := hs <;> simp [hostReadReg, hr, hc, hs]

end

theorem regValue_status (s : State) : (regValue s .status).toNat =
    match s.status with | .idle => 0 | .busy => 1 | .done => 2 | .error => 3 := by
  simp only [regValue]
  cases s.status <;> rfl

theorem regValue_err (s : State) : (regValue s .err).toNat =
    match s.err with | .none => 0 | .invalidFormat => 1 | .decodeError => 2 | .outOfCapacity => 3 := by
  simp only [regValue]
  cases s.err <;> rfl

/-- The reserved bits of CHANNELS and COLORSPACE read 0 (R34). -/
theorem zeroExtend_byte_toNat (b : Byte) : (b.zeroExtend 32).toNat = b.toNat :=
  BitVec.toNat_setWidth_of_le (by decide)

/-- Settles O36: no control register is refused, and each reads as its field. -/
theorem controlRegistersAlwaysRead : Obligations.ControlRegistersAlwaysRead := by
  intro s u n hu hn
  rw [step_readReg hu]
  obtain rfl | rfl | rfl | rfl : n = 0 ∨ n = 1 ∨ n = 2 ∨ n = 3 := by omega
  · exact ⟨_, hostReadReg_control (r := .status) rfl rfl, fun _ => regValue_status u, nofun, nofun, nofun⟩
  · exact ⟨_, hostReadReg_control (r := .err) rfl rfl, nofun, fun _ => regValue_err u, nofun, nofun⟩
  · exact ⟨_, hostReadReg_control (r := .ctrl) rfl rfl, nofun, nofun, fun _ => rfl, nofun⟩
  · exact ⟨_, hostReadReg_control (r := .inLen) rfl rfl, nofun, nofun, nofun, fun _ => rfl⟩

/-- Settles O37: DONE is the status in which a result register reads. -/
theorem resultRegistersReadWhenDone : Obligations.ResultRegistersReadWhenDone := by
  intro s u n hu h4 h7 hs
  rw [step_readReg hu]
  obtain rfl | rfl | rfl | rfl : n = 4 ∨ n = 5 ∨ n = 6 ∨ n = 7 := by omega
  · exact ⟨_, hostReadReg_done (r := .width) rfl hs, fun _ => rfl, nofun, nofun, nofun⟩
  · exact ⟨_, hostReadReg_done (r := .height) rfl hs, nofun, fun _ => rfl, nofun, nofun⟩
  · exact ⟨_, hostReadReg_done (r := .channels) rfl hs, nofun, nofun, fun _ => zeroExtend_byte_toNat u.channels, nofun⟩
  · exact ⟨_, hostReadReg_done (r := .colorspace) rfl hs, nofun, nofun, nofun, fun _ => zeroExtend_byte_toNat u.colorspace⟩

/-- Settles O38: a result register stops by the status, a number above 7 because it names none. -/
theorem registerAccessesThatStop : Obligations.RegisterAccessesThatStop := by
  intro s u n
  refine ⟨fun hu h4 h7 => ?_, fun hu h8 => ?_, fun v hu h8 => ?_⟩ <;> rw [step_host hu]
  · obtain ⟨r, hr, hres⟩ := regOfNumber_result h4 h7
    exact ⟨hostReadReg_busy hr hres, hostReadReg_noValue hr hres⟩
  · simp only [hostTurn, hostReadReg, regOfNumber_above h8]
  · simp only [hostTurn, hostWriteReg, regOfNumber_above h8]

/-- Settles O39: the write falls through to `answered none`, of CTRL because bit 0 is not START. -/
theorem writesWithoutEffect : Obligations.WritesWithoutEffect := by
  intro s u n v hu hn
  rw [step_host hu]
  have plain (h : n = 0 ∨ n = 1 ∨ n = 4 ∨ n = 5 ∨ n = 6 ∨ n = 7) : hostWriteReg n v u = answered none u := by
    obtain rfl | rfl | rfl | rfl | rfl | rfl := h <;> rfl
  obtain hn | hn | hn | ⟨rfl, hv⟩ := hn
  · exact plain (.inl hn)
  · exact plain (.inr (.inl hn))
  · exact plain (by omega)
  · have hbit : ¬v.getLsbD 0 = true := by rw [ctrlStart_iff]; omega
    exact if_neg hbit

/-- Settles O40: neither port is refused, and INWRITE reads back as `Memory.read_write` says. -/
theorem hostLoadsTheInput : Obligations.HostLoadsTheInput := by
  intro s u hs
  refine ⟨fun a v hu ha => ?_, fun v hu hv => ?_⟩ <;> rw [step_host hu]
  · refine ⟨_, (if_neg hs).trans (if_pos ha), rfl, fun x => ?_⟩
    rw [Memory.read_write]
    simp only [eq_comm]
  · exact (if_neg hs).trans (if_pos hv)

/-- Settles O41: BUSY is checked first, then the operand. -/
theorem inputWritesThatAreRefused : Obligations.InputWritesThatAreRefused := by
  intro s u
  refine ⟨fun v hu hb hv => ?_, fun a v hu hb => ?_, fun v hu hb => ?_, fun a v hu hb ha => ?_,
    fun v hu hb hv => ?_⟩ <;> rw [step_host hu]
  · exact (if_pos (ctrlStart_iff.2 hv)).trans (if_pos hb)
  · exact if_pos hb
  · exact if_pos hb
  · exact (if_neg hb).trans (if_neg (Nat.not_lt.2 ha))
  · exact (if_neg hb).trans (if_neg (Nat.not_le.2 hv))

end Sys2Proof.Machine
end

section
/-! PROOFS. The memories (spec/20_memory.md): what error entry leaves of OUT, that every read of IN and every write of
OUT the core makes is of a byte that exists, and which byte of OUT a step may change. -/

/-! ### Error entry (R67, R203) -/

namespace Sys2Proof.Machine

/-- R203, whatever NPIX had become by the check that failed. -/
theorem raise_errorEntered (e : ErrKind) (s : State) (n : BitVec 64) :
    Claims.ErrorEntered s e (raise e { s with npix := n }) :=
  ⟨rfl, rfl, Memory.read_nil, rfl⟩

/-- R109. -/
theorem fetch_of_missing {s : State} (h : s.inLen.toNat ≤ s.pos.toNat) : fetch s = .ok none := by
  have hno : ¬inAvail s s.pos.toNat 1 = true := by rw [inAvail_iff]; omega
  exact if_neg hno

/-- R110: once the tag byte is read, the length check comes before any operand byte. -/
theorem fetch_of_truncated {s : State} {b0 : Byte} (hl : s.pos.toNat < s.inLen.toNat)
    (h0 : inRead s s.pos.toNat = .ok b0) (hlen : s.inLen.toNat < s.pos.toNat + opLength b0) : fetch s = .ok none := by
  have hyes : inAvail s s.pos.toNat 1 = true := inAvail_iff.2 hl
  have hno : ¬inAvail s s.pos.toNat (opLength b0) = true := by rw [inAvail_iff]; omega
  simp only [fetch, if_pos hyes, if_neg hno, h0, bind, Except.bind]

/-- Settles O23: the tag byte is not available, so nothing is read. -/
theorem missingTagByteIsADecodeError : Obligations.MissingTagByteIsADecodeError := by
  intro s u hu hl hr hpos
  rw [step_core hu]
  exact ⟨_, coreTurn_of_truncated hl hr (fetch_of_missing hpos), raise_errorEntered _ u u.npix⟩

/-- Settles O24: the tag byte is read, and the length it gives is not available. -/
theorem truncatedOpcodeIsADecodeError : Obligations.TruncatedOpcodeIsADecodeError := by
  intro s u b0 hu hl hr hb hpos hlen
  have h0 : inRead u u.pos.toNat = .ok b0 := inRead_of_inputHolds hb (j := 0) rfl
  rw [step_core hu]
  exact ⟨_, coreTurn_of_truncated hl hr (fetch_of_truncated hpos h0 hlen), raise_errorEntered _ u u.npix⟩

/-- R102. -/
theorem headerStep_of_short {s : State} (h : s.inLen.toNat < 14) : headerStep s = .next (raise .invalidFormat s) :=
  headerStep_next_iff.2 (.inl ⟨h, rfl⟩)

/-- R103. -/
theorem headerStep_of_badMagic {s : State} {m : List Byte} (hl : 14 ≤ s.inLen.toNat) (hm : inReadBytes s 0 4 = .ok m)
    (hne : m ≠ magic) : headerStep s = .next (raise .invalidFormat s) :=
  headerStep_next_iff.2 (.inr ⟨hl, m, hm, .inl ⟨hne, rfl⟩⟩)

/-- Settles O31: the length check stands before every read. -/
theorem shortInputIsInvalidFormat : Obligations.ShortInputIsInvalidFormat := by
  intro s u hu hh hl
  rw [step_core hu, coreTurn_of_inHeader hh]
  exact ⟨_, headerStep_of_short hl, raise_errorEntered _ u u.npix⟩

/-- Settles O32: of the bytes only the first four are read. -/
theorem badMagicIsInvalidFormat : Obligations.BadMagicIsInvalidFormat := by
  intro s u m0 m1 m2 m3 hu hh hl hb hbad
  have hne : [m0, m1, m2, m3] ≠ magic := fun h => hbad (by simpa [magic] using h)
  rw [step_core hu, coreTurn_of_inHeader hh]
  exact ⟨_, headerStep_of_badMagic hl (inReadBytes_of_inputHolds hb) hne, raise_errorEntered _ u u.npix⟩

/-- R104. -/
theorem acceptHeader_badChannels {hd : Header} {s : State} (h3 : hd.channels ≠ 3) (h4 : hd.channels ≠ 4) :
    acceptHeader hd s = raise .invalidFormat (setHeader hd s) :=
  if_pos ⟨h3, h4⟩

/-- R105. -/
theorem acceptHeader_tooLarge {hd : Header} {s : State} (hch : hd.channels = 3 ∨ hd.channels = 4)
    (hcap : s.params.outCapacity < hd.width.toNat * hd.height.toNat * hd.channels.toNat) :
    acceptHeader hd s = raise .outOfCapacity (headerSet hd s) := by
  rw [acceptHeader, if_neg (by tauto), if_pos (by rwa [pixelTotal_toNat])]; rfl

/-- Settles O33: the channel count is checked before the size. -/
theorem badChannelCountIsInvalidFormat : Obligations.BadChannelCountIsInvalidFormat := by
  intro s u w3 w2 w1 w0 h3 h2 h1 h0 ch cs hu hh hl hb hne3 hne4
  have hstep := (step_core hu).trans (coreTurn_of_inputHolds hh hl hb)
  rw [acceptHeader_badChannels (BitVec.toNat_ne.2 hne3) (BitVec.toNat_ne.2 hne4)] at hstep
  exact ⟨_, hstep, raise_errorEntered _ _ u.npix, be32_toNat_eq_beValue .., be32_toNat_eq_beValue ..⟩

/-- Settles O34: the size is computed in 64 bits, so exactly. -/
theorem imageLargerThanOutIsOutOfCapacity : Obligations.ImageLargerThanOutIsOutOfCapacity := by
  intro s u w3 w2 w1 w0 h3 h2 h1 h0 ch cs hu hh hl hb hch hcap
  rw [← be32_toNat_eq_beValue w3 w2 w1 w0, ← be32_toNat_eq_beValue h3 h2 h1 h0] at hcap ⊢
  have hstep := (step_core hu).trans (coreTurn_of_inputHolds hh hl hb)
  rw [acceptHeader_tooLarge (channels_of_toNat hch) hcap] at hstep
  exact ⟨_, hstep, raise_errorEntered _ _ _, rfl, rfl⟩

end Sys2Proof.Machine

/-! ### Every access of the core is to a byte that exists (R51, R105, R233) -/

namespace Sys2Proof.Machine

section
variable {s : State} (hf : Filled s.inMem s.inLen.toNat) (hc : s.inLen.toNat ≤ s.params.inCapacity)
include hf hc

theorem inRead_total {a : Nat} (h : a < s.inLen.toNat) : ∃ v, inRead s a = .ok v := by
  obtain ⟨v, hv⟩ := hf a h
  exact ⟨v, inRead_ok_iff.2 ⟨by omega, hv⟩⟩

theorem inReadBE32_total {a : Nat} (h : a + 4 ≤ s.inLen.toNat) : ∃ w, inReadBE32 s a = .ok w := by
  obtain ⟨b0, h0⟩ := inRead_total hf hc (a := a) (by omega)
  obtain ⟨b1, h1⟩ := inRead_total hf hc (a := a + 1) (by omega)
  obtain ⟨b2, h2⟩ := inRead_total hf hc (a := a + 2) (by omega)
  obtain ⟨b3, h3⟩ := inRead_total hf hc (a := a + 3) (by omega)
  exact ⟨_, inReadBE32_ok_iff.2 ⟨b0, b1, b2, b3, h0, h1, h2, h3, rfl⟩⟩

theorem readHeader_total (h : 14 ≤ s.inLen.toNat) : ∃ hd, readHeader s = .ok hd := by
  obtain ⟨w, hw⟩ := inReadBE32_total hf hc (a := 4) (by omega)
  obtain ⟨ht, hht⟩ := inReadBE32_total hf hc (a := 8) (by omega)
  obtain ⟨ch, hch⟩ := inRead_total hf hc (a := 12) (by omega)
  obtain ⟨cs, hcs⟩ := inRead_total hf hc (a := 13) (by omega)
  exact ⟨⟨w, ht, ch, cs⟩, readHeader_ok_iff.2 ⟨hw, hht, hch, hcs⟩⟩

/-- R102 to R106: each check of the header step leads to a next state. -/
theorem headerStep_total : ∃ t, headerStep s = .next t := by
  obtain hl | hl := Nat.lt_or_ge s.inLen.toNat 14
  · exact ⟨_, headerStep_of_short hl⟩
  · obtain ⟨m, hm, -⟩ := inReadBytes_total hf hc (a := 0) (n := 4) (by omega)
    by_cases hmagic : m = magic
    · obtain ⟨hd, hhd⟩ := readHeader_total hf hc hl
      exact ⟨_, headerStep_next_iff.2 (.inr ⟨hl, m, hm, .inr ⟨hmagic, hd, hhd, rfl⟩⟩)⟩
    · exact ⟨_, headerStep_of_badMagic hl hm hmagic⟩

/-- R109, R110: a fetch reads only what is below IN_LEN. -/
theorem fetch_total : ∃ o, fetch s = .ok o := by
  obtain hpos | hpos := Nat.lt_or_ge s.pos.toNat s.inLen.toNat
  · obtain ⟨b0, h0⟩ := inRead_total hf hc hpos
    obtain hlen | hlen := Nat.lt_or_ge s.inLen.toNat (s.pos.toNat + opLength b0)
    · exact ⟨_, fetch_of_truncated hpos h0 hlen⟩
    · obtain ⟨bytes, hbytes, -⟩ := inReadBytes_total hf hc hlen
      have h1 : inAvail s s.pos.toNat 1 = true := inAvail_iff.2 hpos
      have hn : inAvail s s.pos.toNat (opLength b0) = true := inAvail_iff.2 hlen
      simp only [fetch, if_pos h1, if_pos hn, h0, hbytes, bind, Except.bind]
      cases decode bytes with
      | ok out => exact ⟨some out.1, rfl⟩
      | error _ => exact ⟨none, rfl⟩
  · exact ⟨_, fetch_of_missing hpos⟩

/-- A pixel step meets the end of the stream with RUN = 0, or it has a pixel to emit (R107 to R110). -/
theorem fetch_none_or_readied : (s.run = 0 ∧ fetch s = .ok none) ∨ ∃ v, Readied s v := by
  by_cases hr : s.run = 0
  · obtain ⟨o, ho⟩ := fetch_total hf hc
    cases o with
    | none => exact .inl ⟨hr, ho⟩
    | some i =>
      obtain ⟨v, hv, -⟩ := exec_next i s
      exact .inr ⟨v, .inl ⟨hr, i, ho, hv⟩⟩
  · exact .inr ⟨_, .inr ⟨hr, rfl⟩⟩

end

/-- R30, R107: the pixel at OUTPOS lies inside the raster. -/
theorem LoopInv.outpos_inside {s : State} (h : LoopInv s) :
    s.outpos.toNat + s.channels.toNat ≤ s.npix.toNat * s.channels.toNat := by
  rw [h.outpos, ← Nat.succ_mul]
  exact Nat.mul_le_mul_right _ h.left

theorem LoopInv.emittable {s : State} (h : LoopInv s) : Claims.Emittable s := by
  have hsize : s.npix.toNat * s.channels.toNat = rasterSize s := by rw [h.total]; rfl
  exact ⟨h.image.channels, h.outpos_inside.trans (hsize.trans_le h.image.fits)⟩

/-- The core always moves on: what the header step and the fetch read has a value, and the pixel emitted fits. -/
theorem coreTurn_total {s : State} (h : Inv s) (hf : Claims.InputLoaded s) : ∃ t, coreTurn s = .next t := by
  by_cases hb : s.status = .busy
  · cases hp : s.phase with
    | header =>
      rw [coreTurn_of_inHeader ⟨hb, hp⟩]
      exact headerStep_total hf h.inLen
    | pixels =>
      have hl : Claims.InLoop s := ⟨hb, hp⟩
      obtain ⟨hr, hnone⟩ | ⟨v, hv⟩ := fetch_none_or_readied hf h.inLen
      · exact ⟨_, coreTurn_of_truncated hl hr hnone⟩
      · obtain ⟨t, ht, -⟩ := finishPixel_of_emittable (hv.emittable (h.loop hb hp).emittable)
        exact ⟨t, (coreTurn_of_readied hl hv).trans ht⟩
  · exact ⟨s, coreTurn_of_not_busy hb⟩

/-- Settles O53: the turn takes nothing but the agenda's head, and `coreTurn_total` does not look at it. -/
theorem coreNeverFaults : Obligations.CoreNeverFaults := by
  intro s u hi hf hu
  have hi' := hu.inv hi
  rw [step_core hu]
  obtain ⟨l, rfl⟩ := hu.exists_agenda
  exact coreTurn_total hi' hf

end Sys2Proof.Machine

/-! ### Which step writes OUT, and which records an error (R50, R67, R114, R183, R200 to R203) -/

namespace Sys2Proof.Machine

/-- What the core's turn can do to OUT, and with it whether it enters ERROR and why. -/
inductive OutEffect (s t : State) : Prop
  /-- an idle core and a good header leave OUT alone (R106, R213) -/
  | kept (hm : t.outMem = s.outMem) (hs : t.status = .error → s.status = .error)
  /-- R67, R200 to R203 -/
  | error (hm : t.outMem = []) (hs : t.status = .error)
      (he : (Claims.InHeader s ∧ (t.err = .invalidFormat ∨ t.err = .outOfCapacity)) ∨
        (Claims.InLoop s ∧ s.run = 0 ∧ t.err = .decodeError))
  /-- R114 -/
  | emitted (p : Pixel) (hl : Claims.InLoop s)
      (hm : t.outMem = Memory.writeBytes s.outMem s.outpos.toNat (storedBytes s.channels p))
      (hs : t.status ≠ .error)

theorem CoreEffect.outEffect {s t : State} (h : CoreEffect s t) : OutEffect s t := by
  cases h with
  | idle => exact .kept rfl id
  | badHeader hh => exact .error rfl rfl (.inl ⟨hh, .inl rfl⟩)
  | truncated hl hr => exact .error rfl rfl (.inr ⟨hl, hr, rfl⟩)
  | header hd hh =>
    obtain he | he | ⟨-, -, he⟩ := acceptHeader_cases hd s <;> rw [he]
    · exact .error rfl rfl (.inl ⟨hh, .inl rfl⟩)
    · exact .error rfl rfl (.inl ⟨hh, .inr rfl⟩)
    · exact .kept rfl fun herr => absurd herr (completeWhen_ne_error hh.1)
  | pixel v _ hl hv ht =>
    obtain ⟨px, run, pos, cache, rfl⟩ := hv.frame
    obtain ⟨-, rfl⟩ := finishPixel_next_iff.1 ht
    exact .emitted px hl rfl (completeWhen_ne_error hl.1)

/-- No host action enters ERROR. -/
theorem HostEffect.status_error {s t : State} {r : HostReq} (h : HostEffect s r t) (ht : t.status = .error) :
    s.status = .error := by
  cases h with
  | start => cases ht
  | reset => cases ht
  | answer => exact ht
  | inLen => exact ht
  | inWrite => exact ht
  | set => exact ht

/-- Settles O58: error entry is the one of the core's effects that leads to ERROR. -/
theorem whereErrorsComeFrom : Obligations.WhereErrorsComeFrom := by
  intro s t h ht hs
  obtain ⟨u, ⟨hu, he⟩ | ⟨r, hu, he⟩⟩ := step_effect h
  all_goals
    have hne : u.status ≠ .error := by rw [hu.eq]; exact hs
  · cases he.outEffect with
    | kept _ hkeep => exact absurd (hkeep ht) hne
    | emitted _ _ _ hend => exact absurd ht hend
    | error hm _ herr => exact ⟨⟨u, hu, herr⟩, fun a => by rw [hm, Memory.read_nil]⟩
  · exact absurd (he.status_error ht) hne

/-- Only an address that is written reads otherwise after a write. -/
theorem Memory.read_writeBytes_ne {m : List Host.Cell} {a x : Nat} {vs : List Byte}
    (h : Memory.read (Memory.writeBytes m a vs) x ≠ Memory.read m x) : a ≤ x ∧ x < a + vs.length := by
  rw [Memory.read_writeBytes] at h
  exact not_not.1 fun hn => h (if_neg hn)

theorem inBounds_iff {s : State} {x y : BitVec 32} :
    inBounds s x y = true ↔ x.toNat < s.width.toNat ∧ y.toNat < s.height.toNat := by
  simp [inBounds]

/-- R182, R183: a host action other than a reset that changes a byte of OUT is a SET inside the image. -/
theorem hostTurn_writes_out {r : HostReq} {s t : State} {a : Nat} (hi : Inv s) (h : hostTurn r s = .next t)
    (hr : r ≠ .powerOnReset) (hne : Memory.read t.outMem a ≠ Memory.read s.outMem a) :
    ∃ x y p, r = .setPixel x y p ∧ s.status = .done ∧ x.toNat < s.width.toNat ∧ y.toNat < s.height.toNat ∧
      rasterOffset s x y ≤ a ∧ a < rasterOffset s x y + s.channels.toNat := by
  cases hostTurn_effect h with
  | set x y p hs _ =>
    obtain ⟨-, ⟨hin, -, -⟩ | ⟨-, ht⟩⟩ := hostSet_next_iff.1 h
    · obtain ⟨hx, hy⟩ := inBounds_iff.1 hin
      obtain ⟨hlow, hhigh⟩ := Memory.read_writeBytes_ne hne
      rw [storedBytes_length (hi.done hs).image.channels] at hhigh
      exact ⟨x, y, p, rfl, hs, hx, hy, hlow, hhigh⟩
    · exact absurd (by rw [ht]) hne
  | reset => exact absurd rfl hr
  | answer => exact absurd rfl hne
  | start => exact absurd rfl hne
  | inLen => exact absurd rfl hne
  | inWrite => exact absurd rfl hne

/-- Settles O57: the core by `CoreEffect.outEffect`, the host by `hostTurn_writes_out`; the invariant gives the
pixel its 3 or 4 bytes and its place in the raster. -/
theorem outBytesChangeOnlyWhereWritten : Obligations.OutBytesChangeOnlyWhereWritten := by
  intro s t a hi h hnr hne
  obtain ⟨τ, u, hu⟩ := turnOf_total s
  have hiu := hu.inv hi
  have hout : u.outMem = s.outMem := by rw [hu.eq]
  have hstatus : u.status = s.status := by rw [hu.eq]
  rw [← hout] at hne
  cases τ with
  | core =>
    cases (coreTurn_effect ((step_core hu).symm.trans h)).outEffect with
    | kept hm => exact absurd (by rw [hm]) hne
    | error hm hs he =>
      have hbusy : u.status = .busy := he.elim (fun hh => hh.1.1) fun hl => hl.1.1
      exact .inr (.inr ⟨hstatus ▸ hbusy, hs, by rw [hm, Memory.read_nil]⟩)
    | emitted p hl hm =>
      have hloop := hiu.loop hl.1 hl.2
      rw [hm] at hne
      obtain ⟨hlow, hhigh⟩ := Memory.read_writeBytes_ne hne
      rw [storedBytes_length hloop.image.channels] at hhigh
      exact .inl ⟨u, hu, hl, hlow, hhigh, hhigh.trans_le hloop.outpos_inside⟩
  | host r =>
    have hr : r ≠ .powerOnReset := by rintro rfl; exact not_turnOf_reset hnr hu
    obtain ⟨x, y, p, rfl, hset⟩ := hostTurn_writes_out hiu ((step_host hu).symm.trans h) hr hne
    exact .inr (.inl ⟨u, x, y, p, hu, hset⟩)

/-- Settles O59: reads and raster accesses answer, and a SET inside the image also stores; no other effect is theirs. -/
theorem readsAndPortAccessesKeepTheDecoder : Obligations.ReadsAndPortAccessesKeepTheDecoder := by
  intro s u t r hu h
  rw [step_host hu] at h
  have heff := hostTurn_effect h
  refine ⟨?_, ?_⟩
  · rintro (⟨n, rfl⟩ | ⟨x, y, rfl⟩)
    · cases heff with | answer => rfl
    · cases heff with | answer => rfl
  · rintro ⟨x, y, p, rfl⟩
    cases heff with
    | answer => rfl
    | set => rfl

end Sys2Proof.Machine
end

section
/-! PROOFS. The encoding (spec/30_encoding.md): the tag byte, what the decoder reads from each format and what the encoder
writes for it, both as arithmetic on the values of the bytes, and that the two undo each other. -/

namespace Sys2Proof

/-! ### Bytes as numbers -/

/-- Masking the low bits is a remainder. -/
theorem and_lowMask_toNat (b : Byte) {k : Nat} (hk : k ≤ 8) :
    (b &&& BitVec.ofNat 8 (2 ^ k - 1)).toNat = b.toNat % 2 ^ k := by
  have hmask : 2 ^ k - 1 < 2 ^ 8 := (Nat.sub_lt (Nat.two_pow_pos k) one_pos).trans_le (Nat.pow_le_pow_right two_pos hk)
  rw [BitVec.toNat_and, BitVec.toNat_ofNat, Nat.mod_eq_of_lt hmask, Nat.and_two_pow_sub_one_eq_mod]

/-- Masking the high bits rounds down. -/
theorem and_highMask_toNat (b : Byte) (k : Nat) : (b &&& BitVec.allOnes 8 <<< k).toNat = b.toNat / 2 ^ k * 2 ^ k := by
  have hle : b.toNat / 2 ^ k * 2 ^ k ≤ b.toNat := Nat.div_mul_le_self _ _
  rw [← BitVec.shiftLeft_ushiftRight, BitVec.toNat_shiftLeft, BitVec.toNat_ushiftRight, Nat.shiftRight_eq_div_pow,
    Nat.shiftLeft_eq, Nat.mod_eq_of_lt (hle.trans_lt b.isLt)]

/-- A shift to the left multiplies; what leaves the byte is lost. -/
theorem shiftLeft_toNat (b : Byte) (k : Nat) : (b <<< k).toNat = b.toNat * 2 ^ k % 256 := by
  rw [BitVec.toNat_shiftLeft, Nat.shiftLeft_eq]

/-- A shift to the right divides. -/
theorem ushiftRight_toNat (b : Byte) (k : Nat) : (b >>> k).toNat = b.toNat / 2 ^ k := by
  rw [BitVec.toNat_ushiftRight, Nat.shiftRight_eq_div_pow]

/-- Two fields in different bits of a byte add up. -/
theorem or_toNat {x y : Byte} (k : Nat) (hx : x.toNat % 2 ^ k = 0) (hy : y.toNat < 2 ^ k) :
    (x ||| y).toNat = x.toNat + y.toNat := by
  obtain ⟨q, hq⟩ := Nat.dvd_of_mod_eq_zero hx
  rw [BitVec.toNat_or, hq, Nat.two_pow_add_eq_or_of_lt hy]

/-- A field of `n` bits put below what the byte already holds adds up. -/
theorem or_shiftLeft_toNat {acc x : Byte} (k n : Nat) (hacc : acc.toNat % 2 ^ (k + n) = 0) (hx : x.toNat < 2 ^ n)
    (hk : k + n ≤ 8) : (acc ||| x <<< k).toNat = acc.toNat + x.toNat * 2 ^ k := by
  have hfit : x.toNat * 2 ^ k < 2 ^ (k + n) := by
    rw [Nat.add_comm, Nat.pow_add]; exact Nat.mul_lt_mul_of_pos_right hx (Nat.two_pow_pos k)
  have hshift : (x <<< k).toNat = x.toNat * 2 ^ k := by
    rw [BitVec.toNat_shiftLeft, Nat.shiftLeft_eq, Nat.mod_eq_of_lt (hfit.trans_le (Nat.pow_le_pow_right two_pos hk))]
  rw [or_toNat (k + n) hacc (hshift ▸ hfit), hshift]

/-- A bit as a number. -/
theorem getLsbD_toNat (b : Byte) (k : Nat) : (b.getLsbD k).toNat = b.toNat / 2 ^ k % 2 :=
  Nat.toNat_testBit b.toNat k

/-- A flag is determined by its number. -/
theorem bool_eq_of_toNat_eq : ∀ {x y : Bool}, x.toNat = y.toNat → x = y := by decide

/-! ### The tag byte -/

/-- The first tag byte value of a tag's range (R74). -/
def Tag.first : Tag → Nat
  | .index => 0x00
  | .runShort => 0x40
  | .runLong => 0x60
  | .diffSmall => 0x80
  | .diffMedium => 0xC0
  | .diffLarge => 0xE0
  | .literal => 0xF0

/-- The last tag byte value of a tag's range (R74). -/
def Tag.last : Tag → Nat
  | .index => 0x3F
  | .runShort => 0x5F
  | .runLong => 0x7F
  | .diffSmall => 0xBF
  | .diffMedium => 0xDF
  | .diffLarge => 0xEF
  | .literal => 0xFF

/-- The tests of R73 as tests of the byte's value: two, three or four leading bits. -/
theorem decodeTag_eq (b0 : Byte) : decodeTag b0 =
    if b0.toNat / 64 * 64 = 0x00 then .index
    else if b0.toNat / 64 * 64 = 0x80 then .diffSmall
    else if b0.toNat / 32 * 32 = 0x40 then .runShort
    else if b0.toNat / 32 * 32 = 0x60 then .runLong
    else if b0.toNat / 32 * 32 = 0xC0 then .diffMedium
    else if b0.toNat / 16 * 16 = 0xE0 then .diffLarge
    else .literal := by
  have two : (b0 &&& 0xC0#8).toNat = b0.toNat / 64 * 64 := and_highMask_toNat b0 6
  have three : (b0 &&& 0xE0#8).toNat = b0.toNat / 32 * 32 := and_highMask_toNat b0 5
  have four : (b0 &&& 0xF0#8).toNat = b0.toNat / 16 * 16 := and_highMask_toNat b0 4
  simp only [decodeTag, ← BitVec.toNat_inj, two, three, four, BitVec.reduceToNat]

/-- A tag byte selects the opcode in whose range its value lies (R74). -/
theorem decodeTag_eq_iff {b0 : Byte} {t : Tag} : decodeTag b0 = t ↔ t.first ≤ b0.toNat ∧ b0.toNat ≤ t.last := by
  have hlt : b0.toNat < 256 := b0.isLt
  rw [decodeTag_eq]
  -- each branch of the tests against each tag: the branch's interval is that tag's range, or disjoint from it
  split_ifs <;> cases t <;> simp only [Tag.first, Tag.last, reduceCtorEq, true_iff, false_iff] <;> omega

/-! ### What the decoder reads, format by format -/

section Formats
variable {b0 : Byte}

theorem decode_of_index (h : decodeTag b0 = .index) (rest : List Byte) :
    decode (b0 :: rest) = .ok (.index (idxField b0), rest) := by simp only [decode, h]

theorem decode_of_runShort (h : decodeTag b0 = .runShort) (rest : List Byte) :
    decode (b0 :: rest) = .ok (.runShort (runShortField b0), rest) := by simp only [decode, h]

theorem decode_of_runLong (h : decodeTag b0 = .runLong) (b1 : Byte) (rest : List Byte) :
    decode (b0 :: b1 :: rest) = .ok (.runLong (runLongField b0 b1), rest) := by simp only [decode, h]

theorem decode_of_diffSmall (h : decodeTag b0 = .diffSmall) (rest : List Byte) :
    decode (b0 :: rest) = .ok (diffSmallOf b0, rest) := by simp only [decode, h]

theorem decode_of_diffMedium (h : decodeTag b0 = .diffMedium) (b1 : Byte) (rest : List Byte) :
    decode (b0 :: b1 :: rest) = .ok (diffMediumOf b0 b1, rest) := by simp only [decode, h]

theorem decode_of_diffLarge (h : decodeTag b0 = .diffLarge) (b1 b2 : Byte) (rest : List Byte) :
    decode (b0 :: b1 :: b2 :: rest) = .ok (diffLargeOf b0 b1 b2, rest) := by simp only [decode, h]

theorem decode_of_literal (h : decodeTag b0 = .literal) {bs : List Byte} {out : Instr × List Byte}
    (hbs : takeLiteral b0 bs = some out) : decode (b0 :: bs) = .ok out := by simp only [decode, h, hbs]

end Formats

/-! ### The decoder's fields as numbers (R75 to R80) -/

theorem idxField_val (b0 : Byte) : (idxField b0).val = b0.toNat % 64 := by
  have : (b0 &&& 0x3F#8).toNat = b0.toNat % 64 := and_lowMask_toNat b0 (k := 6) (by decide)
  simp only [idxField, Fin.ofNat, this, Nat.mod_mod]

theorem runShortField_eq (b0 : Byte) : runShortField b0 = b0.toNat % 32 :=
  and_lowMask_toNat b0 (k := 5) (by decide)

theorem runLongField_eq (b0 b1 : Byte) : runLongField b0 b1 = b0.toNat % 32 * 256 + b1.toNat + 32 := by
  rw [runLongField, ← runShortField, runShortField_eq]

theorem diffSmallOf_eq (b0 : Byte) : diffSmallOf b0 =
    .diffSmall ((b0.toNat / 16 % 4 : Nat) - 2) ((b0.toNat / 4 % 4 : Nat) - 2) ((b0.toNat % 4 : Nat) - 2) := by
  have low (x : Byte) : (x &&& 0x3#8).toNat = x.toNat % 4 := and_lowMask_toNat x (k := 2) (by decide)
  simp only [diffSmallOf, unbias, low, ushiftRight_toNat]
  rfl

theorem diffMediumOf_eq (b0 b1 : Byte) : diffMediumOf b0 b1 =
    .diffMedium ((b0.toNat % 32 : Nat) - 16) ((b1.toNat / 16 : Nat) - 8) ((b1.toNat % 16 : Nat) - 8) := by
  have low5 : (b0 &&& 0x1F#8).toNat = b0.toNat % 32 := and_lowMask_toNat b0 (k := 5) (by decide)
  have low4 : (b1 &&& 0x0F#8).toNat = b1.toNat % 16 := and_lowMask_toNat b1 (k := 4) (by decide)
  simp only [diffMediumOf, unbias, low5, low4, ushiftRight_toNat]
  rfl

theorem diffLargeOf_eq (b0 b1 b2 : Byte) : diffLargeOf b0 b1 b2 =
    .diffLarge ((b0.toNat % 16 * 2 + b1.toNat / 128 : Nat) - 16) ((b1.toNat / 4 % 32 : Nat) - 16)
      ((b1.toNat % 4 * 8 + b2.toNat / 32 : Nat) - 16) ((b2.toNat % 32 : Nat) - 16) := by
  have h1 := b1.isLt
  have h2 := b2.isLt
  have low4 : (b0 &&& 0x0F#8).toNat = b0.toNat % 16 := and_lowMask_toNat b0 (k := 4) (by decide)
  have low2 : (b1 &&& 0x03#8).toNat = b1.toNat % 4 := and_lowMask_toNat b1 (k := 2) (by decide)
  have low5 (x : Byte) : (x &&& 0x1F#8).toNat = x.toNat % 32 := and_lowMask_toNat x (k := 5) (by decide)
  have first : (((b0 &&& 0x0F#8) <<< 1) ||| (b1 >>> 7)).toNat = b0.toNat % 16 * 2 + b1.toNat / 128 := by
    rw [or_toNat 1 (by rw [shiftLeft_toNat]; omega) (by rw [ushiftRight_toNat]; omega), shiftLeft_toNat,
      ushiftRight_toNat, low4]
    omega
  have third : (((b1 &&& 0x03#8) <<< 3) ||| (b2 >>> 5)).toNat = b1.toNat % 4 * 8 + b2.toNat / 32 := by
    rw [or_toNat 3 (by rw [shiftLeft_toNat]; omega) (by rw [ushiftRight_toNat]; omega), shiftLeft_toNat,
      ushiftRight_toNat, low2]
    omega
  simp only [diffLargeOf, unbias, first, third, low5, ushiftRight_toNat]
  rfl

/-! ### The operands of a LITERAL (R81) -/

/-- A flag takes an operand off the bytes exactly when it is set. -/
theorem takeOperand_eq_some_iff {flag : Bool} {bs rest : List Byte} {o : Option Byte} :
    takeOperand flag bs = some (o, rest) ↔ o.isSome = flag ∧ bs = o.toList ++ rest := by
  cases flag with
  | false => cases o <;> simp [takeOperand, eq_comm]
  | true => cases bs <;> cases o <;> simp [takeOperand, eq_comm]

/-- Bytes enough for a flag are bytes enough for its operand. -/
theorem takeOperand_of_le {flag : Bool} {bs : List Byte} (h : flag.toNat ≤ bs.length) :
    ∃ o rest, takeOperand flag bs = some (o, rest) ∧ bs.length = flag.toNat + rest.length := by
  cases flag with
  | false => exact ⟨none, bs, rfl, (Nat.zero_add _).symm⟩
  | true =>
    cases bs with
    | nil => cases h
    | cons b bs => exact ⟨some b, bs, rfl, Nat.add_comm _ 1⟩

/-- The operands of a LITERAL stand one after another, each there exactly when its flag is set. -/
theorem takeLiteral_eq_some_iff {b0 : Byte} {bs rest : List Byte} {i : Instr} :
    takeLiteral b0 bs = some (i, rest) ↔ ∃ r g b a, i = .literal r g b a ∧
      (r.isSome = flagR b0 ∧ g.isSome = flagG b0 ∧ b.isSome = flagB b0 ∧ a.isSome = flagA b0) ∧
      bs = r.toList ++ g.toList ++ b.toList ++ a.toList ++ rest := by
  constructor
  · intro h
    simp only [takeLiteral] at h
    split at h
    · cases h
    · rename_i hr
      split at h
      · cases h
      · rename_i hg
        split at h
        · cases h
        · rename_i hb
          split at h
          · cases h
          · rename_i ha
            cases h
            obtain ⟨fr, rfl⟩ := takeOperand_eq_some_iff.1 hr
            obtain ⟨fg, rfl⟩ := takeOperand_eq_some_iff.1 hg
            obtain ⟨fb, rfl⟩ := takeOperand_eq_some_iff.1 hb
            obtain ⟨fa, rfl⟩ := takeOperand_eq_some_iff.1 ha
            exact ⟨_, _, _, _, rfl, ⟨fr, fg, fb, fa⟩, by simp only [List.append_assoc]⟩
  · rintro ⟨r, g, b, a, rfl, ⟨hr, hg, hb, ha⟩, rfl⟩
    simp only [takeLiteral, List.append_assoc, takeOperand_eq_some_iff.2 ⟨hr, rfl⟩, takeOperand_eq_some_iff.2 ⟨hg, rfl⟩,
      takeOperand_eq_some_iff.2 ⟨hb, rfl⟩, takeOperand_eq_some_iff.2 ⟨ha, rfl⟩]

/-- Bytes enough for the set flags hold the operands of a LITERAL. -/
theorem takeLiteral_of_le {b0 : Byte} {bs : List Byte} (h : flagCount b0 ≤ bs.length) :
    ∃ out, takeLiteral b0 bs = some out := by
  simp only [flagCount] at h
  obtain ⟨r, bs1, hr, hlr⟩ := takeOperand_of_le (flag := flagR b0) (bs := bs) (by omega)
  obtain ⟨g, bs2, hg, hlg⟩ := takeOperand_of_le (flag := flagG b0) (bs := bs1) (by omega)
  obtain ⟨b, bs3, hb, hlb⟩ := takeOperand_of_le (flag := flagB b0) (bs := bs2) (by omega)
  obtain ⟨a, bs4, ha, -⟩ := takeOperand_of_le (flag := flagA b0) (bs := bs3) (by omega)
  exact ⟨(.literal r g b a, bs4), by simp only [takeLiteral, hr, hg, hb, ha]⟩

theorem flagR_toNat (b0 : Byte) : (flagR b0).toNat = b0.toNat / 8 % 2 := getLsbD_toNat b0 3
theorem flagG_toNat (b0 : Byte) : (flagG b0).toNat = b0.toNat / 4 % 2 := getLsbD_toNat b0 2
theorem flagB_toNat (b0 : Byte) : (flagB b0).toNat = b0.toNat / 2 % 2 := getLsbD_toNat b0 1
theorem flagA_toNat (b0 : Byte) : (flagA b0).toNat = b0.toNat % 2 :=
  (getLsbD_toNat b0 0).trans (by rw [Nat.pow_zero, Nat.div_one])

/-- The set flags of a tag byte, counted on its value. -/
theorem flagCount_eq (b0 : Byte) :
    flagCount b0 = b0.toNat / 8 % 2 + b0.toNat / 4 % 2 + b0.toNat / 2 % 2 + b0.toNat % 2 := by
  simp only [flagCount, flagR_toNat, flagG_toNat, flagB_toNat, flagA_toNat]

/-! ### What the encoder writes, format by format, as numbers (R84) -/

theorem encode_index (k : Fin 64) : ∃ b0, encode (.index k) = [b0] ∧ b0.toNat = k.val :=
  ⟨_, rfl, by simp only [BitVec.zero_or, BitVec.toNat_ofNat]; omega⟩

theorem encode_runShort {n : Nat} (h : n ≤ 31) : ∃ b0, encode (.runShort n) = [b0] ∧ b0.toNat = 0x40 + n := by
  have hn : (BitVec.ofNat 8 n).toNat = n := by rw [BitVec.toNat_ofNat]; omega
  refine ⟨_, rfl, ?_⟩
  rw [or_toNat 5 rfl (by omega), hn]
  rfl

theorem encode_runLong {n : Nat} (hlow : 32 ≤ n) (hhigh : n ≤ 8223) :
    ∃ b0 b1, encode (.runLong n) = [b0, b1] ∧ b0.toNat = 0x60 + (n - 32) / 256 ∧ b1.toNat = (n - 32) % 256 := by
  have hq : (BitVec.ofNat 8 ((n - 32) / 256)).toNat = (n - 32) / 256 := by rw [BitVec.toNat_ofNat]; omega
  refine ⟨_, _, rfl, ?_, BitVec.toNat_ofNat ..⟩
  rw [or_toNat 5 rfl (by omega), hq]
  rfl

theorem encode_diffSmall {dr dg db : Int} (hr : InBias 2 dr) (hg : InBias 2 dg) (hb : InBias 2 db) :
    ∃ b0, encode (.diffSmall dr dg db) = [b0] ∧ (b0.toNat : Int) = 0x80 + (dr + 2) * 16 + (dg + 2) * 4 + (db + 2) := by
  have er := biased_toNat (bias := 2) hr (by decide)
  have eg := biased_toNat (bias := 2) hg (by decide)
  have eb := biased_toNat (bias := 2) hb (by decide)
  have first : (0x80#8 ||| biased 2 dr <<< 4).toNat = 0x80 + (biased 2 dr).toNat * 16 :=
    or_shiftLeft_toNat 4 2 rfl (by omega) (by decide)
  have second : (0x80#8 ||| biased 2 dr <<< 4 ||| biased 2 dg <<< 2).toNat = _ :=
    or_shiftLeft_toNat 2 2 (by omega) (by omega) (by decide)
  refine ⟨_, rfl, ?_⟩
  rw [or_toNat 2 (by omega) (by omega), second, first]
  omega

theorem encode_diffMedium {dr dg db : Int} (hr : InBias 16 dr) (hg : InBias 8 dg) (hb : InBias 8 db) :
    ∃ b0 b1, encode (.diffMedium dr dg db) = [b0, b1] ∧
      (b0.toNat : Int) = 0xC0 + (dr + 16) ∧ (b1.toNat : Int) = (dg + 8) * 16 + (db + 8) := by
  have er := biased_toNat (bias := 16) hr (by decide)
  have eg := biased_toNat (bias := 8) hg (by decide)
  have eb := biased_toNat (bias := 8) hb (by decide)
  refine ⟨_, _, rfl, ?_, ?_⟩
  · rw [or_toNat 5 rfl (by omega), Nat.cast_add, er]
    rfl
  · rw [or_toNat 4 (by rw [shiftLeft_toNat]; omega) (by omega), shiftLeft_toNat]
    omega

theorem encode_diffLarge {vr vg vb va : Int} (hr : InBias 16 vr) (hg : InBias 16 vg) (hb : InBias 16 vb)
    (ha : InBias 16 va) :
    ∃ b0 b1 b2, encode (.diffLarge vr vg vb va) = [b0, b1, b2] ∧
      (b0.toNat : Int) = 0xE0 + (vr + 16) / 2 ∧
      (b1.toNat : Int) = (vr + 16) % 2 * 128 + (vg + 16) * 4 + (vb + 16) / 8 ∧
      (b2.toNat : Int) = (vb + 16) % 8 * 32 + (va + 16) := by
  have er := biased_toNat (bias := 16) hr (by decide)
  have eg := biased_toNat (bias := 16) hg (by decide)
  have eb := biased_toNat (bias := 16) hb (by decide)
  have ea := biased_toNat (bias := 16) ha (by decide)
  have first : (biased 16 vr <<< 7).toNat = (biased 16 vr).toNat % 2 * 128 := by rw [shiftLeft_toNat]; omega
  have second : (biased 16 vr <<< 7 ||| biased 16 vg <<< 2).toNat = _ :=
    or_shiftLeft_toNat 2 5 (by omega) (by omega) (by decide)
  refine ⟨_, _, _, rfl, ?_, ?_, ?_⟩
  · rw [or_toNat 4 rfl (by rw [ushiftRight_toNat]; omega), ushiftRight_toNat, BitVec.toNat_ofNat]
    omega
  · rw [or_toNat 2 (by omega) (by rw [ushiftRight_toNat]; omega), second, first, ushiftRight_toNat]
    omega
  · rw [or_toNat 5 (by rw [shiftLeft_toNat]; omega) (by omega), shiftLeft_toNat]
    omega

theorem flagBit_toNat (v : Option Byte) {k : Nat} (hk : k < 8) : (flagBit v k).toNat = v.isSome.toNat * 2 ^ k := by
  have hfit : 2 ^ k < 256 := Nat.pow_lt_pow_right (by decide) hk
  cases v with
  | none => simp [flagBit]
  | some x =>
    simp only [flagBit, Option.isSome_some, ite_true, shiftLeft_toNat, BitVec.toNat_ofNat, Bool.toNat_true]
    omega

theorem encode_literal (r g b a : Option Byte) :
    ∃ b0, encode (.literal r g b a) = b0 :: (r.toList ++ g.toList ++ b.toList ++ a.toList) ∧
      b0.toNat = 0xF0 + r.isSome.toNat * 8 + g.isSome.toNat * 4 + b.isSome.toNat * 2 + a.isSome.toNat := by
  have hr := r.isSome.toNat_le
  have hg := g.isSome.toNat_le
  have hb := b.isSome.toNat_le
  have ha := a.isSome.toNat_le
  have bitR : (flagBit r 3).toNat = r.isSome.toNat * 8 := flagBit_toNat r (by decide)
  have bitG : (flagBit g 2).toNat = g.isSome.toNat * 4 := flagBit_toNat g (by decide)
  have bitB : (flagBit b 1).toNat = b.isSome.toNat * 2 := flagBit_toNat b (by decide)
  have bitA : (flagBit a 0).toNat = a.isSome.toNat * 1 := flagBit_toNat a (by decide)
  have first : (0xF0#8 ||| flagBit r 3).toNat = 0xF0 + (flagBit r 3).toNat := or_toNat 4 rfl (by omega)
  have second : (0xF0#8 ||| flagBit r 3 ||| flagBit g 2).toNat = _ := or_toNat 3 (by omega) (by omega)
  have third : (0xF0#8 ||| flagBit r 3 ||| flagBit g 2 ||| flagBit b 1).toNat = _ := or_toNat 2 (by omega) (by omega)
  refine ⟨_, rfl, ?_⟩
  rw [or_toNat 1 (by omega) (by omega)]
  omega

/-! ### Decoding what the encoder wrote -/

theorem decode_encode_index (k : Fin 64) (rest : List Byte) :
    decode (encode (.index k) ++ rest) = .ok (.index k, rest) := by
  obtain ⟨b0, he, h0⟩ := encode_index k
  have ht : decodeTag b0 = .index := decodeTag_eq_iff.2 (show 0x00 ≤ _ ∧ _ ≤ 0x3F by omega)
  have hk : idxField b0 = k := Fin.ext (by rw [idxField_val]; omega)
  rw [he, List.singleton_append, decode_of_index ht, hk]

theorem decode_encode_runShort {n : Nat} (h : n ≤ 31) (rest : List Byte) :
    decode (encode (.runShort n) ++ rest) = .ok (.runShort n, rest) := by
  obtain ⟨b0, he, h0⟩ := encode_runShort h
  have ht : decodeTag b0 = .runShort := decodeTag_eq_iff.2 (show 0x40 ≤ _ ∧ _ ≤ 0x5F by omega)
  have hn : runShortField b0 = n := by rw [runShortField_eq]; omega
  rw [he, List.singleton_append, decode_of_runShort ht, hn]

theorem decode_encode_runLong {n : Nat} (hlow : 32 ≤ n) (hhigh : n ≤ 8223) (rest : List Byte) :
    decode (encode (.runLong n) ++ rest) = .ok (.runLong n, rest) := by
  obtain ⟨b0, b1, he, h0, h1⟩ := encode_runLong hlow hhigh
  have ht : decodeTag b0 = .runLong := decodeTag_eq_iff.2 (show 0x60 ≤ _ ∧ _ ≤ 0x7F by omega)
  have hn : runLongField b0 b1 = n := by rw [runLongField_eq]; omega
  rw [he, List.cons_append, List.singleton_append, decode_of_runLong ht, hn]

theorem decode_encode_diffSmall {dr dg db : Int} (hr : InBias 2 dr) (hg : InBias 2 dg) (hb : InBias 2 db)
    (rest : List Byte) : decode (encode (.diffSmall dr dg db) ++ rest) = .ok (.diffSmall dr dg db, rest) := by
  obtain ⟨b0, he, h0⟩ := encode_diffSmall hr hg hb
  have ht : decodeTag b0 = .diffSmall := decodeTag_eq_iff.2 (show 0x80 ≤ _ ∧ _ ≤ 0xBF by omega)
  have hd : diffSmallOf b0 = .diffSmall dr dg db := by
    rw [diffSmallOf_eq, Instr.diffSmall.injEq]; omega
  rw [he, List.singleton_append, decode_of_diffSmall ht, hd]

theorem decode_encode_diffMedium {dr dg db : Int} (hr : InBias 16 dr) (hg : InBias 8 dg) (hb : InBias 8 db)
    (rest : List Byte) : decode (encode (.diffMedium dr dg db) ++ rest) = .ok (.diffMedium dr dg db, rest) := by
  obtain ⟨b0, b1, he, h0, h1⟩ := encode_diffMedium hr hg hb
  have ht : decodeTag b0 = .diffMedium := decodeTag_eq_iff.2 (show 0xC0 ≤ _ ∧ _ ≤ 0xDF by omega)
  have hd : diffMediumOf b0 b1 = .diffMedium dr dg db := by
    rw [diffMediumOf_eq, Instr.diffMedium.injEq]; omega
  rw [he, List.cons_append, List.singleton_append, decode_of_diffMedium ht, hd]

theorem decode_encode_diffLarge {vr vg vb va : Int} (hr : InBias 16 vr) (hg : InBias 16 vg) (hb : InBias 16 vb)
    (ha : InBias 16 va) (rest : List Byte) :
    decode (encode (.diffLarge vr vg vb va) ++ rest) = .ok (.diffLarge vr vg vb va, rest) := by
  obtain ⟨b0, b1, b2, he, h0, h1, h2⟩ := encode_diffLarge hr hg hb ha
  have ht : decodeTag b0 = .diffLarge := decodeTag_eq_iff.2 (show 0xE0 ≤ _ ∧ _ ≤ 0xEF by omega)
  have hd : diffLargeOf b0 b1 b2 = .diffLarge vr vg vb va := by
    rw [diffLargeOf_eq, Instr.diffLarge.injEq]; omega
  rw [he, List.cons_append, List.cons_append, List.singleton_append, decode_of_diffLarge ht, hd]

theorem decode_encode_literal (r g b a : Option Byte) (rest : List Byte) :
    decode (encode (.literal r g b a) ++ rest) = .ok (.literal r g b a, rest) := by
  obtain ⟨b0, he, h0⟩ := encode_literal r g b a
  have hr := r.isSome.toNat_le
  have hg := g.isSome.toNat_le
  have hb := b.isSome.toNat_le
  have ha := a.isSome.toNat_le
  have ht : decodeTag b0 = .literal := decodeTag_eq_iff.2 (show 0xF0 ≤ _ ∧ _ ≤ 0xFF by omega)
  have fr : r.isSome = flagR b0 := bool_eq_of_toNat_eq (by rw [flagR_toNat]; omega)
  have fg : g.isSome = flagG b0 := bool_eq_of_toNat_eq (by rw [flagG_toNat]; omega)
  have fb : b.isSome = flagB b0 := bool_eq_of_toNat_eq (by rw [flagB_toNat]; omega)
  have fa : a.isSome = flagA b0 := bool_eq_of_toNat_eq (by rw [flagA_toNat]; omega)
  rw [he, List.cons_append]
  exact decode_of_literal ht (takeLiteral_eq_some_iff.2 ⟨r, g, b, a, rfl, ⟨fr, fg, fb, fa⟩, rfl⟩)

/-- Settles O1: a case for each format, its bytes by `encode_…` and its fields by `…_eq`. -/
theorem decodeOfEncodeIsTheInstruction : Obligations.DecodeOfEncodeIsTheInstruction := by
  intro i rest hw
  cases i with
  | index k => exact decode_encode_index k rest
  | runShort n => exact decode_encode_runShort (of_decide_eq_true hw) rest
  | runLong n =>
    obtain ⟨hlow, hhigh⟩ := of_decide_eq_true hw
    exact decode_encode_runLong hlow hhigh rest
  | diffSmall dr dg db =>
    obtain ⟨hr, hg, hb⟩ := of_decide_eq_true hw
    exact decode_encode_diffSmall hr hg hb rest
  | diffMedium dr dg db =>
    obtain ⟨hr, hg, hb⟩ := of_decide_eq_true hw
    exact decode_encode_diffMedium hr hg hb rest
  | diffLarge vr vg vb va =>
    obtain ⟨hr, hg, hb, ha⟩ := of_decide_eq_true hw
    exact decode_encode_diffLarge hr hg hb ha rest
  | literal r g b a => exact decode_encode_literal r g b a rest

/-! ### Encoding what the decoder read -/

section Tags
variable {b0 : Byte}

theorem encode_idxField (ht : decodeTag b0 = .index) : encode (.index (idxField b0)) = [b0] := by
  have hrange : 0x00 ≤ b0.toNat ∧ b0.toNat ≤ 0x3F := decodeTag_eq_iff.1 ht
  obtain ⟨x0, he, h0⟩ := encode_index (idxField b0)
  rw [idxField_val] at h0
  rw [he, BitVec.eq_of_toNat_eq (x := x0) (y := b0) (by omega)]

theorem encode_runShortField (ht : decodeTag b0 = .runShort) : encode (.runShort (runShortField b0)) = [b0] := by
  have hrange : 0x40 ≤ b0.toNat ∧ b0.toNat ≤ 0x5F := decodeTag_eq_iff.1 ht
  obtain ⟨x0, he, h0⟩ := encode_runShort (of_decide_eq_true (runShortField_wellFormed b0))
  rw [runShortField_eq] at h0
  rw [he, BitVec.eq_of_toNat_eq (x := x0) (y := b0) (by omega)]

theorem encode_runLongField (ht : decodeTag b0 = .runLong) (b1 : Byte) :
    encode (.runLong (runLongField b0 b1)) = [b0, b1] := by
  have hrange : 0x60 ≤ b0.toNat ∧ b0.toNat ≤ 0x7F := decodeTag_eq_iff.1 ht
  obtain ⟨hlow, hhigh⟩ := of_decide_eq_true (runLongField_wellFormed b0 b1)
  obtain ⟨x0, x1, he, h0, h1⟩ := encode_runLong hlow hhigh
  rw [runLongField_eq] at h0 h1
  rw [he, BitVec.eq_of_toNat_eq (x := x0) (y := b0) (by omega), BitVec.eq_of_toNat_eq (x := x1) (y := b1) (by omega)]

theorem encode_diffSmallOf (ht : decodeTag b0 = .diffSmall) : encode (diffSmallOf b0) = [b0] := by
  have hrange : 0x80 ≤ b0.toNat ∧ b0.toNat ≤ 0xBF := decodeTag_eq_iff.1 ht
  have hw := diffSmallOf_wellFormed b0
  rw [diffSmallOf_eq] at hw ⊢
  obtain ⟨hr, hg, hb⟩ := of_decide_eq_true hw
  obtain ⟨x0, he, h0⟩ := encode_diffSmall hr hg hb
  rw [he, BitVec.eq_of_toNat_eq (x := x0) (y := b0) (by omega)]

theorem encode_diffMediumOf (ht : decodeTag b0 = .diffMedium) (b1 : Byte) :
    encode (diffMediumOf b0 b1) = [b0, b1] := by
  have hrange : 0xC0 ≤ b0.toNat ∧ b0.toNat ≤ 0xDF := decodeTag_eq_iff.1 ht
  have hw := diffMediumOf_wellFormed b0 b1
  rw [diffMediumOf_eq] at hw ⊢
  obtain ⟨hr, hg, hb⟩ := of_decide_eq_true hw
  obtain ⟨x0, x1, he, h0, h1⟩ := encode_diffMedium hr hg hb
  rw [he, BitVec.eq_of_toNat_eq (x := x0) (y := b0) (by omega), BitVec.eq_of_toNat_eq (x := x1) (y := b1) (by omega)]

theorem encode_diffLargeOf (ht : decodeTag b0 = .diffLarge) (b1 b2 : Byte) :
    encode (diffLargeOf b0 b1 b2) = [b0, b1, b2] := by
  have hrange : 0xE0 ≤ b0.toNat ∧ b0.toNat ≤ 0xEF := decodeTag_eq_iff.1 ht
  have hw := diffLargeOf_wellFormed b0 b1 b2
  rw [diffLargeOf_eq] at hw ⊢
  obtain ⟨hr, hg, hb, ha⟩ := of_decide_eq_true hw
  obtain ⟨x0, x1, x2, he, h0, h1, h2⟩ := encode_diffLarge hr hg hb ha
  rw [he, BitVec.eq_of_toNat_eq (x := x0) (y := b0) (by omega), BitVec.eq_of_toNat_eq (x := x1) (y := b1) (by omega),
    BitVec.eq_of_toNat_eq (x := x2) (y := b2) (by omega)]

theorem encode_of_takeLiteral (ht : decodeTag b0 = .literal) {bs rest : List Byte} {i : Instr}
    (h : takeLiteral b0 bs = some (i, rest)) : encode i ++ rest = b0 :: bs := by
  have hrange : 0xF0 ≤ b0.toNat ∧ b0.toNat ≤ 0xFF := decodeTag_eq_iff.1 ht
  obtain ⟨r, g, b, a, rfl, ⟨hr, hg, hb, ha⟩, rfl⟩ := takeLiteral_eq_some_iff.1 h
  obtain ⟨x0, he, h0⟩ := encode_literal r g b a
  rw [hr, hg, hb, ha, flagR_toNat, flagG_toNat, flagB_toNat, flagA_toNat] at h0
  rw [he, BitVec.eq_of_toNat_eq (x := x0) (y := b0) (by omega), List.cons_append]

end Tags

/-- The encoding of what the decoder read, followed by what it left, is what it read from. -/
theorem encode_of_decode {b0 : Byte} {more rest : List Byte} {i : Instr} (h : decode (b0 :: more) = .ok (i, rest)) :
    encode i ++ rest = b0 :: more := by
  cases ht : decodeTag b0 with
  | index =>
    rw [decode_of_index ht] at h
    cases h
    rw [encode_idxField ht, List.singleton_append]
  | runShort =>
    rw [decode_of_runShort ht] at h
    cases h
    rw [encode_runShortField ht, List.singleton_append]
  | runLong =>
    cases more with
    | nil => simp only [decode, ht, reduceCtorEq] at h
    | cons b1 more =>
      rw [decode_of_runLong ht] at h
      cases h
      rw [encode_runLongField ht]
      rfl
  | diffSmall =>
    rw [decode_of_diffSmall ht] at h
    cases h
    rw [encode_diffSmallOf ht, List.singleton_append]
  | diffMedium =>
    cases more with
    | nil => simp only [decode, ht, reduceCtorEq] at h
    | cons b1 more =>
      rw [decode_of_diffMedium ht] at h
      cases h
      rw [encode_diffMediumOf ht]
      rfl
  | diffLarge =>
    match more, h with
    | b1 :: b2 :: more, h =>
      rw [decode_of_diffLarge ht] at h
      cases h
      rw [encode_diffLargeOf ht]
      rfl
    | [], h => simp only [decode, ht, reduceCtorEq] at h
    | [b1], h => simp only [decode, ht, reduceCtorEq] at h
  | literal =>
    cases hl : takeLiteral b0 more with
    | none => simp only [decode, ht, hl, reduceCtorEq] at h
    | some out =>
      rw [decode_of_literal ht hl] at h
      cases h
      exact encode_of_takeLiteral ht hl

/-- Settles O2: the operands are in range by `decode_spec`, the bytes come back by `encode_of_decode`. -/
theorem encodeOfDecodeIsTheBytes : Obligations.EncodeOfDecodeIsTheBytes := by
  intro bytes i rest h
  cases bytes with
  | nil => cases h
  | cons b0 more => exact ⟨(decode_spec h).1, encode_of_decode h⟩

/-! ### Truncation and length (R72, R82, R83) -/

/-- Bytes as many as the tag byte says hold an opcode: nothing else can be wrong with them. -/
theorem decode_of_opLength_le {b0 : Byte} {more : List Byte} (h : opLength b0 ≤ more.length + 1) :
    ∃ out, decode (b0 :: more) = .ok out := by
  cases ht : decodeTag b0 with
  | index => exact ⟨_, decode_of_index ht more⟩
  | runShort => exact ⟨_, decode_of_runShort ht more⟩
  | diffSmall => exact ⟨_, decode_of_diffSmall ht more⟩
  | runLong =>
    cases more with
    | nil => simp [opLength, ht] at h
    | cons b1 more => exact ⟨_, decode_of_runLong ht b1 more⟩
  | diffMedium =>
    cases more with
    | nil => simp [opLength, ht] at h
    | cons b1 more => exact ⟨_, decode_of_diffMedium ht b1 more⟩
  | diffLarge =>
    match more, h with
    | b1 :: b2 :: more, _ => exact ⟨_, decode_of_diffLarge ht b1 b2 more⟩
    | [], h => simp [opLength, ht] at h
    | [b1], h => simp [opLength, ht] at h
  | literal =>
    have hle : flagCount b0 ≤ more.length := by simp only [opLength, ht] at h; omega
    obtain ⟨out, hl⟩ := takeLiteral_of_le hle
    exact ⟨out, decode_of_literal ht hl⟩

/-- From a tag byte on the decoder refuses exactly the bytes that are fewer than it says. -/
theorem decode_error_iff {b0 : Byte} {more : List Byte} :
    (∃ e, decode (b0 :: more) = .error e) ↔ (b0 :: more).length < opLength b0 := by
  rw [List.length_cons]
  constructor
  · rintro ⟨e, he⟩
    by_contra hle
    obtain ⟨out, ho⟩ := decode_of_opLength_le (not_lt.1 hle)
    rw [he] at ho
    cases ho
  · intro hlt
    cases hd : decode (b0 :: more) with
    | error e => exact ⟨e, rfl⟩
    | ok out =>
      obtain ⟨i, rest⟩ := out
      obtain ⟨-, -, hlen⟩ := decode_spec hd
      omega

/-- Settles O4: no bytes are no opcode, and from a tag byte on `decode_error_iff` counts. -/
theorem decodeRefusesOnlyTruncation : Obligations.DecodeRefusesOnlyTruncation := by
  intro bytes
  cases bytes with
  | nil => exact iff_of_true ⟨_, rfl⟩ (.inl rfl)
  | cons b0 more =>
    rw [decode_error_iff]
    constructor
    · exact fun h => .inr ⟨b0, more, rfl, h⟩
    · rintro (h | ⟨x0, xs, h, hlt⟩)
      · cases h
      · cases h; exact hlt

/-- The length by the tag byte's value: the two ranges of two bytes lie between those of one. -/
theorem opLength_eq (b0 : Byte) : opLength b0 =
    if b0.toNat ≤ 0x5F then 1 else if b0.toNat ≤ 0x7F then 2 else if b0.toNat ≤ 0xBF then 1
    else if b0.toNat ≤ 0xDF then 2 else if b0.toNat ≤ 0xEF then 3
    else 1 + (b0.toNat / 8 % 2 + b0.toNat / 4 % 2 + b0.toNat / 2 % 2 + b0.toNat % 2) := by
  have hrange := decodeTag_eq_iff.1 (rfl : decodeTag b0 = decodeTag b0)
  cases ht : decodeTag b0 <;> simp only [opLength, ht, flagCount_eq, Tag.first, Tag.last] at hrange ⊢ <;>
    split_ifs <;> omega

/-- Settles O5: `opLength_eq`, and `decode_spec` for what the decoder used. -/
theorem tagByteGivesTheLength : Obligations.TagByteGivesTheLength := by
  intro b0 more
  refine ⟨opLength_eq b0, fun i rest h => ?_⟩
  obtain ⟨-, hi, hmore⟩ := decode_spec h
  exact ⟨hi, hmore⟩

/-! ### The fields of each format, by the value of the tag byte -/

/-- Settles O7: the digits of the payload are the fields of `diffLargeOf_eq`, the first and the third of them made of two
bytes each. -/
theorem operandsOfDiffLarge : Obligations.OperandsOfDiffLarge := by
  intro b0 b1 b2 rest hrange payload
  have ht : decodeTag b0 = .diffLarge := decodeTag_eq_iff.2 hrange
  have first : payload / 2 ^ 15 = b0.toNat % 16 * 2 + b1.toNat / 128 := by omega
  have second : payload / 2 ^ 10 % 32 = b1.toNat / 4 % 32 := by omega
  have third : payload / 2 ^ 5 % 32 = b1.toNat % 4 * 8 + b2.toNat / 32 := by omega
  have fourth : payload % 32 = b2.toNat % 32 := by omega
  rw [decode_of_diffLarge ht, diffLargeOf_eq, first, second, third, fourth]

/-- Settles O3: a clause of `decodeTag_eq_iff` for each tag; the first and the last have one bound only. -/
theorem tagRangesPartitionTheBytes : Obligations.TagRangesPartitionTheBytes := by
  intro b0
  have hle : b0.toNat ≤ 0xFF := Nat.le_of_lt_succ b0.isLt
  refine ⟨?_, decodeTag_eq_iff, decodeTag_eq_iff, decodeTag_eq_iff, decodeTag_eq_iff, decodeTag_eq_iff, ?_⟩
  · rw [decodeTag_eq_iff]; exact and_iff_right (Nat.zero_le _)
  · rw [decodeTag_eq_iff]; exact and_iff_left hle

/-- Settles O6: the fields by `…_eq`; the tag byte's leading bits are taken off its value by its range. -/
theorem operandsOfShortOpcodes : Obligations.OperandsOfShortOpcodes := by
  intro b0 b1 rest
  refine ⟨fun h => ?_, fun h => ?_, fun h => ?_, fun h => ?_, fun h => ?_⟩
  · have ht : decodeTag b0 = .index := decodeTag_eq_iff.2 ⟨Nat.zero_le _, h⟩
    exact ⟨idxField b0, decode_of_index ht rest, by rw [idxField_val]; omega⟩
  · have ht : decodeTag b0 = .runShort := decodeTag_eq_iff.2 h
    have hn : runShortField b0 = b0.toNat - 0x40 := by rw [runShortField_eq]; omega
    rw [decode_of_runShort ht, hn]
  · have ht : decodeTag b0 = .runLong := decodeTag_eq_iff.2 h
    have hn : runLongField b0 b1 = (b0.toNat - 0x60) * 256 + b1.toNat + 32 := by rw [runLongField_eq]; omega
    rw [decode_of_runLong ht, hn]
  · have ht : decodeTag b0 = .diffSmall := decodeTag_eq_iff.2 h
    rw [decode_of_diffSmall ht, diffSmallOf_eq]
  · have ht : decodeTag b0 = .diffMedium := decodeTag_eq_iff.2 h
    rw [decode_of_diffMedium ht, diffMediumOf_eq]

/-- A byte that is there only where its flag is set, as an operand. -/
theorem given_eq_toList (flag : Bool) (b : Byte) : Claims.given flag b = (if flag then some b else none).toList := by
  cases flag <;> rfl

theorem isSome_ite (flag : Bool) (b : Byte) : (if flag then some b else none).isSome = flag := by
  cases flag <;> rfl

/-- Settles O8: the given bytes are the operands that `takeLiteral_eq_some_iff` asks for. -/
theorem operandsOfLiteral : Obligations.OperandsOfLiteral := by
  intro b0 r g b a rest hlow
  have ht : decodeTag b0 = .literal := decodeTag_eq_iff.2 ⟨hlow, Nat.le_of_lt_succ b0.isLt⟩
  simp only [given_eq_toList]
  exact decode_of_literal ht (takeLiteral_eq_some_iff.2 ⟨_, _, _, _, rfl,
    ⟨isSome_ite _ _, isSome_ite _ _, isSome_ite _ _, isSome_ite _ _⟩, rfl⟩)

/-- Settles O9: O1 at the seven opcodes whose encodings the words are. -/
theorem writtenOutWordsDecode : Obligations.WrittenOutWordsDecode :=
  ⟨decode_encode_index 40 [], decode_encode_runShort (n := 2) (by decide) [],
    decode_encode_runLong (n := 37) (by decide) (by decide) [],
    decode_encode_diffSmall (dr := 1) (dg := 1) (db := 1) (by decide) (by decide) (by decide) [],
    decode_encode_diffMedium (dr := 5) (dg := 0) (db := 2) (by decide) (by decide) (by decide) [],
    decode_encode_diffLarge (vr := 2) (vg := 2) (vb := 2) (va := 3) (by decide) (by decide) (by decide) (by decide) [],
    decode_encode_literal none (some 0x11) (some 0x22) none []⟩

end Sys2Proof
end

section
/-! PROOFS. The decode control (spec/40_decode_control.md): START, the idle core, and whole decodes as runs of pixel
steps, from the header step to DONE or ERROR. -/

/-! ### START and the idle core (R100, R101) -/

namespace Sys2Proof.Machine

/-- Settles O26: the only turns of the core with an effect are those of a BUSY one. -/
theorem coreIsIdleUnlessBusy : Obligations.CoreIsIdleUnlessBusy :=
  fun _ _ hu hs => (step_core hu).trans (coreTurn_of_not_busy hs)

/-- Settles O30: the value is odd and the state not BUSY, so the write of CTRL is a START. -/
theorem startBeginsADecode : Obligations.StartBeginsADecode := by
  intro s u v hu hv hs
  have hstart : hostWriteCtrl v u = .next { startDecode u with answer := none } :=
    (if_pos (ctrlStart_iff.2 hv)).trans (if_neg hs)
  exact ⟨_, (step_host hu).trans hstart, rfl, rfl, rfl, rfl⟩

end Sys2Proof.Machine

/-! ### Runs of the core -/

namespace Sys2Proof.Machine

/-- A run with no host turn to come begins with the core's turn. -/
theorem run_succ_of_coreTurn {s u : State} (ha : s.agenda = []) (h : coreTurn s = .next u) (k : Nat) :
    Host.Core.run core (k + 1) s = Host.Core.run core k u := by
  have hstep : core.step s = .next u := (step_core (.of_nil ha)).trans h
  simp only [Host.Core.run, hstep]

/-- BUSY before each of the first `k` steps. -/
def BusyBefore (k : Nat) (s : State) : Prop :=
  ∀ j, j < k → ∃ u, Host.Core.run core j s = .next u ∧ u.status = .busy

theorem BusyBefore.zero (s : State) : BusyBefore 0 s := fun _ hj => absurd hj (Nat.not_lt_zero _)

theorem BusyBefore.succ {s u : State} {k : Nat} (hs : s.status = .busy) (ha : s.agenda = [])
    (hu : coreTurn s = .next u) (hk : BusyBefore k u) : BusyBefore (k + 1) s := by
  intro j hj
  cases j with
  | zero => exact ⟨s, rfl, hs⟩
  | succ j =>
    rw [run_succ_of_coreTurn ha hu]
    exact hk j (Nat.lt_of_succ_lt_succ hj)

end Sys2Proof.Machine

/-! ### The pixel loop: one step -/

namespace Sys2Proof.Machine

/-- A decode in its pixel loop, with a pixel left (R107). The rest of `Inv` plays no part in what the loop computes. -/
structure Decoding (s : State) : Prop where
  inLoop : Claims.InLoop s
  inv : LoopInv s

/-- The image is complete and the decode DONE (R116). -/
structure Complete (s : State) : Prop where
  status : s.status = .done
  pixcnt : s.pixcnt.toNat = s.npix.toNat

/-- The next pixel step finds no whole opcode (R109, R110). -/
structure Truncated (s : State) : Prop where
  decoding : Decoding s
  run : s.run = 0
  fetch : fetch s = .ok none

theorem Decoding.status {s : State} (h : Decoding s) : s.status = .busy := h.inLoop.1

/-- After a good header, and after every pixel step without an error, the loop goes on or the image is complete. -/
abbrev LoopState (s : State) : Prop := Decoding s ∨ Complete s

theorem LoopState.decoding {s : State} (h : LoopState s) (hleft : s.pixcnt.toNat < s.npix.toNat) : Decoding s := by
  obtain h | h := h
  · exact h
  · exact absurd h.pixcnt (Nat.ne_of_lt hleft)

theorem LoopState.done_iff {s : State} (h : LoopState s) : s.status = .done ↔ s.pixcnt.toNat = s.npix.toNat := by
  obtain h | h := h
  · refine iff_of_false (fun hd => ?_) (Nat.ne_of_lt h.inv.left)
    cases h.status.symm.trans hd
  · exact iff_of_true h.status h.pixcnt

/-- What no pixel step writes: the header registers, NPIX, the input, the sizes and the agenda. -/
structure LoopFrame (s t : State) : Prop where
  width : t.width = s.width
  height : t.height = s.height
  channels : t.channels = s.channels
  colorspace : t.colorspace = s.colorspace
  npix : t.npix = s.npix
  inLen : t.inLen = s.inLen
  inMem : t.inMem = s.inMem
  params : t.params = s.params
  agenda : t.agenda = s.agenda

theorem LoopFrame.refl (s : State) : LoopFrame s s := ⟨rfl, rfl, rfl, rfl, rfl, rfl, rfl, rfl, rfl⟩

theorem LoopFrame.trans {s u t : State} (h : LoopFrame s u) (h' : LoopFrame u t) : LoopFrame s t where
  width := h'.width.trans h.width
  height := h'.height.trans h.height
  channels := h'.channels.trans h.channels
  colorspace := h'.colorspace.trans h.colorspace
  npix := h'.npix.trans h.npix
  inLen := h'.inLen.trans h.inLen
  inMem := h'.inMem.trans h.inMem
  params := h'.params.trans h.params
  agenda := h'.agenda.trans h.agenda

section
variable {s v u : State} (h : Decoding s) (hv : Readied s v) (hu : finishPixel v = .next u)
include hv hu

theorem loopFrame_of_pixel : LoopFrame s u := by
  obtain ⟨px, run, pos, cache, rfl⟩ := hv.frame
  obtain ⟨-, rfl⟩ := finishPixel_next_iff.1 hu
  exact ⟨rfl, rfl, rfl, rfl, rfl, rfl, rfl, rfl, rfl⟩

include h

theorem Decoding.pixcnt_pixel : u.pixcnt.toNat = s.pixcnt.toNat + 1 := by
  obtain ⟨px, run, pos, cache, rfl⟩ := hv.frame
  obtain ⟨-, rfl⟩ := finishPixel_next_iff.1 hu
  exact h.inv.pixcnt_succ

theorem Decoding.outpos_pixel : u.outpos.toNat = s.outpos.toNat + s.channels.toNat := by
  have hsucc := h.inv.outpos_succ
  rw [Nat.succ_mul, ← h.inv.outpos] at hsucc
  obtain ⟨px, run, pos, cache, rfl⟩ := hv.frame
  obtain ⟨-, rfl⟩ := finishPixel_next_iff.1 hu
  exact hsucc

theorem Decoding.stored_pixel :
    Claims.PixelStored s.outMem u.outMem s.outpos.toNat s.channels.toNat v.px := by
  have hch := h.inv.image.channels
  obtain ⟨px, run, pos, cache, rfl⟩ := hv.frame
  obtain ⟨-, -, hstored⟩ := finishPixel_pixelFinished (v := { s with px, run, pos, cache }) hch hu
  exact hstored

theorem Decoding.coreTurn_pixel : coreTurn s = .next u := (coreTurn_of_readied h.inLoop hv).trans hu

/-- The counters of R115 and the bounds of R27 to R30 are those of the next pixel step, or the image is complete. -/
theorem Decoding.loopState_pixel : LoopState u := by
  have hi := h.inv
  have hcnt := h.pixcnt_pixel hv hu
  have hout := h.outpos_pixel hv hu
  have hpix := h.stored_pixel hv hu
  obtain ⟨hlow, hhigh, hrun, hcache⟩ := hv.bounds hi
  obtain ⟨px, run, pos, cache, rfl⟩ := hv.frame
  obtain ⟨-, rfl⟩ := finishPixel_next_iff.1 hu
  by_cases hlast : s.pixcnt + 1 = s.npix
  · exact .inr ⟨if_pos hlast, congrArg BitVec.toNat hlast⟩
  · have hleft := BitVec.toNat_ne.1 hlast
    have hleft' := hi.left
    rw [hi.pixcnt_succ] at hleft
    refine .inl ⟨⟨(if_neg hlast).trans h.inLoop.1, (if_neg hlast).trans h.inLoop.2⟩, ?_⟩
    exact
      { image := ⟨hi.image.channels, hi.image.fits⟩
        total := hi.total
        left := by rw [hcnt]; show _ < s.npix.toNat; omega
        outpos := by rw [hout, hcnt, hi.outpos, Nat.succ_mul]; rfl
        posLow := hlow
        posHigh := hhigh
        run := hrun
        cache := hcache
        emitted := by
          rw [hout, ← storedBytes_length hi.image.channels px]
          exact hi.emitted.writeBytes _ }

end

/-- The emission and the counters leave what the opcode or the run continuation set. -/
theorem finishPixel_regs {v u : State} (hu : finishPixel v = .next u) :
    u.px = v.px ∧ u.cache = v.cache ∧ u.run = v.run ∧ u.pos = v.pos := by
  obtain ⟨-, rfl⟩ := finishPixel_next_iff.1 hu
  exact ⟨rfl, rfl, rfl, rfl⟩

/-- The pixel of a readied step fits, so the core's turn emits it. -/
theorem Decoding.exists_pixel {s v : State} (h : Decoding s) (hv : Readied s v) : ∃ u, finishPixel v = .next u := by
  obtain ⟨u, hu, -⟩ := finishPixel_of_emittable (hv.emittable h.inv.emittable)
  exact ⟨u, hu⟩

end Sys2Proof.Machine

/-! ### The pixel loop: any number of steps -/

namespace Sys2Proof.Machine

/-- The core's turns lead from one state to another and emit these pixels, one each (R107). -/
inductive Emits : State → List Pixel → State → Prop
  | nil (s : State) : Emits s [] s
  | cons {s v u t : State} {ps : List Pixel} (h : Decoding s) (hv : Readied s v) (hu : finishPixel v = .next u)
      (hrest : Emits u ps t) : Emits s (v.px :: ps) t

section
variable {s t : State} {ps : List Pixel}

theorem Emits.loopFrame (h : Emits s ps t) : LoopFrame s t := by
  induction h with
  | nil s => exact .refl s
  | cons _ hv hu _ ih => exact (loopFrame_of_pixel hv hu).trans ih

theorem Emits.loopState (h : Emits s ps t) (hs : LoopState s) : LoopState t := by
  induction h with
  | nil _ => exact hs
  | cons h hv hu _ ih => exact ih (h.loopState_pixel hv hu)

theorem Emits.pixcnt (h : Emits s ps t) : t.pixcnt.toNat = s.pixcnt.toNat + ps.length := by
  induction h with
  | nil _ => rfl
  | cons h hv hu _ ih => rw [ih, h.pixcnt_pixel hv hu, List.length_cons]; omega

/-- What stands below OUTPOS is not written again. -/
theorem Emits.kept (h : Emits s ps t) {a : Nat} (ha : a < s.outpos.toNat) :
    Memory.read t.outMem a = Memory.read s.outMem a := by
  induction h with
  | nil _ => rfl
  | cons h hv hu _ ih =>
    rw [ih (by rw [h.outpos_pixel hv hu]; omega), h.stored_pixel hv hu a, if_neg (by omega)]

/-- Pixel j of the emitted ones stands j pixels after OUTPOS (R56, R114, R115). -/
theorem Emits.stored (h : Emits s ps t) {j c : Nat} {p : Pixel} (hp : ps[j]? = some p) (hc : c < s.channels.toNat) :
    Memory.read t.outMem (s.outpos.toNat + j * s.channels.toNat + c) = some (Claims.chan p c) := by
  induction h generalizing j with
  | nil _ => cases hp
  | @cons s v u _ _ h hv hu hrest ih =>
    have hout := h.outpos_pixel hv hu
    cases j with
    | zero =>
      cases hp
      rw [hrest.kept (by omega), h.stored_pixel hv hu, if_pos (by omega)]
      congr 2; omega
    | succ j =>
      have hch := (loopFrame_of_pixel hv hu).channels
      have hj := ih (by simpa using hp) (by rwa [hch])
      rw [hch, hout] at hj
      rw [← hj, Nat.succ_mul]
      congr 1; omega

/-- Emitting takes a step for each pixel; the run goes on from there. -/
theorem Emits.run_add (h : Emits s ps t) (ha : s.agenda = []) (k : Nat) :
    Host.Core.run core (ps.length + k) s = Host.Core.run core k t := by
  induction h with
  | nil _ => rw [List.length_nil, Nat.zero_add]
  | cons h hv hu _ ih =>
    rw [List.length_cons, Nat.add_right_comm, run_succ_of_coreTurn ha (h.coreTurn_pixel hv hu)]
    exact ih ((loopFrame_of_pixel hv hu).agenda.trans ha)

theorem Emits.run_length (h : Emits s ps t) (ha : s.agenda = []) : Host.Core.run core ps.length s = .next t :=
  h.run_add ha 0

/-- Before every pixel that is emitted the decode is BUSY. -/
theorem Emits.busyBefore {k : Nat} (h : Emits s ps t) (ha : s.agenda = []) (hk : BusyBefore k t) :
    BusyBefore (ps.length + k) s := by
  induction h with
  | nil _ => rwa [List.length_nil, Nat.zero_add]
  | cons h hv hu _ ih =>
    rw [List.length_cons, Nat.add_right_comm]
    exact .succ h.status ha (h.coreTurn_pixel hv hu) (ih ((loopFrame_of_pixel hv hu).agenda.trans ha) hk)

end

/-- R117: with its input there, the loop emits pixels until the image is complete or the stream ends too soon. -/
theorem LoopState.exists_end {s : State} (h : LoopState s) (hf : Claims.InputLoaded s)
    (hc : s.inLen.toNat ≤ s.params.inCapacity) : ∃ ps t, Emits s ps t ∧ (Complete t ∨ Truncated t) := by
  induction hn : s.npix.toNat - s.pixcnt.toNat generalizing s with
  | zero =>
    obtain h | h := h
    · have := h.inv.left; omega
    · exact ⟨[], s, .nil s, .inl h⟩
  | succ n ih =>
    have h := h.decoding (by omega)
    obtain ⟨hr, hnone⟩ | ⟨v, hv⟩ := fetch_none_or_readied hf hc
    · exact ⟨[], s, .nil s, .inr ⟨h, hr, hnone⟩⟩
    · obtain ⟨u, hu⟩ := h.exists_pixel hv
      have hframe := loopFrame_of_pixel hv hu
      have hcnt := h.pixcnt_pixel hv hu
      have hloop := h.loopState_pixel hv hu
      have hloaded : Claims.InputLoaded u := by
        rw [Claims.InputLoaded, hframe.inMem, hframe.inLen]; exact hf
      obtain ⟨ps, t, hps, hend⟩ := ih hloop hloaded (by rw [hframe.inLen, hframe.params]; exact hc)
        (by rw [hframe.npix, hcnt]; omega)
      exact ⟨_, t, .cons h hv hu hps, hend⟩

end Sys2Proof.Machine

/-! ### A run opcode (R133) -/

namespace Sys2Proof.Machine

/-- R108, R113: with RUN = k or more, k continuations emit k times PX and read nothing. -/
theorem LoopState.emits_continuations {s : State} {k : Nat} (h : LoopState s) (hk : k ≤ s.run.toNat)
    (hleft : s.pixcnt.toNat + k ≤ s.npix.toNat) :
    ∃ t, Emits s (List.replicate k s.px) t ∧ t.px = s.px ∧ t.cache = s.cache ∧ t.run.toNat = s.run.toNat - k ∧
      t.pos = s.pos := by
  induction k generalizing s with
  | zero => exact ⟨s, .nil s, rfl, rfl, rfl, rfl⟩
  | succ k ih =>
    have h := h.decoding (by omega)
    have hr : s.run ≠ 0 := fun h0 => by rw [h0] at hk; exact absurd hk (Nat.not_succ_le_zero k)
    have hv : Readied s { s with run := s.run - 1 } := .inr ⟨hr, rfl⟩
    have hdec : (s.run - 1).toNat = s.run.toNat - 1 := by bv_omega
    obtain ⟨u, hu⟩ := h.exists_pixel hv
    have hloop := h.loopState_pixel hv hu
    have hcnt := h.pixcnt_pixel hv hu
    have hnpix := (loopFrame_of_pixel hv hu).npix
    obtain ⟨hpx, hcache, hrun, hpos⟩ := finishPixel_regs hu
    obtain ⟨t, ht, hpx', hcache', hrun', hpos'⟩ := ih hloop (by rw [hrun, hdec]; omega) (by rw [hcnt, hnpix]; omega)
    rw [hpx] at ht
    exact ⟨t, .cons (v := { s with run := s.run - 1 }) h hv hu ht, hpx'.trans hpx, hcache'.trans hcache,
      by rw [hrun', hrun, hdec]; omega, hpos'.trans hpos⟩

/-- R131, R132: a well-formed run opcode sets RUN to its value, which fits; PX and the cache stay. -/
theorem exec_runOpcode {i : Instr} {n : Nat} {s v : State} (hi : i = .runShort n ∨ i = .runLong n) (hw : i.WellFormed)
    (h : exec i s = .next v) : v.run.toNat = n ∧ v.px = s.px ∧ v.cache = s.cache := by
  have hn : n ≤ 8223 := by
    obtain rfl | rfl := hi <;> simp only [Instr.WellFormed, Instr.wellFormed, decide_eq_true_eq] at hw <;> omega
  have hmod : (BitVec.ofNat 14 n).toNat = n := by rw [BitVec.toNat_ofNat]; omega
  obtain rfl | rfl := hi <;> (cases h; exact ⟨hmod, rfl, rfl⟩)

/-- POS moves on by the length of the opcode, all of it below IN_LEN, without a wrap. -/
theorem exec_pos_toNat {i : Instr} {s v : State} (h : exec i s = .next v)
    (hl : s.pos.toNat + i.length ≤ s.inLen.toNat) : v.pos.toNat = s.pos.toNat + i.length := by
  have := s.inLen.isLt
  rw [exec_pos h, BitVec.toNat_add, BitVec.toNat_ofNat]; omega

/-- What the decoder reads is well formed, and it takes as many bytes as the opcode is long (R72). -/
theorem decode_length {bytes rest : List Byte} {i : Instr} (h : decode bytes = .ok (i, rest)) :
    i.WellFormed ∧ bytes.length = i.length + rest.length := by
  cases bytes with
  | nil => cases h
  | cons b0 more =>
    obtain ⟨hw, hi, hlen⟩ := decode_spec h
    exact ⟨hw, by rw [List.length_cons, hi]; exact hlen⟩

/-- A decode in the pixel loop meets the loop's invariant. -/
theorem Inv.decoding {s : State} (h : Inv s) (hl : Claims.InLoop s) : Decoding s := ⟨hl, h.loop hl.1 hl.2⟩

/-- Settles O27: the opcode's own step emits PX and leaves RUN = n, of which `emits_continuations` takes k. -/
theorem runOpcodeEmitsItsRun : Obligations.RunOpcodeEmitsItsRun := by
  intro s bytes i n k hinv ha hl hr hi hd hb hlen hk hleft
  have h := hinv.decoding hl
  obtain ⟨hw, hil⟩ := decode_length hd
  rw [List.length_nil, Nat.add_zero] at hil
  obtain ⟨v, hexec, -⟩ := exec_next i s
  have hv : Readied s v := .inl ⟨hr, i, fetch_of_inputHolds hd hb hlen, hexec⟩
  obtain ⟨hvrun, hvpx, hvcache⟩ := exec_runOpcode hi hw hexec
  have hvpos := exec_pos_toNat hexec (by rw [← hil]; exact hlen)
  obtain ⟨u, hu⟩ := h.exists_pixel hv
  obtain ⟨hupx, hucache, hurun, hupos⟩ := finishPixel_regs hu
  have hnpix := (loopFrame_of_pixel hv hu).npix
  have hcnt := h.pixcnt_pixel hv hu
  obtain ⟨t, ht, hpx, hcache, hrun, hpos⟩ := (h.loopState_pixel hv hu).emits_continuations (k := k)
    (by rw [hurun, hvrun]; exact hk) (by rw [hcnt, hnpix]; omega)
  have hall : Emits s (List.replicate (k + 1) s.px) t := by
    rw [hupx] at ht
    rw [List.replicate_succ, ← hvpx]
    exact .cons h hv hu ht
  have htcnt := hall.pixcnt
  rw [List.length_replicate] at htcnt
  refine ⟨t, ?_, by rw [hpx, hupx, hvpx], by rw [hcache, hucache, hvcache], by rw [hrun, hurun, hvrun],
    by rw [hpos, hupos, hvpos, hil], htcnt, ?_, fun j c hj hc => hall.stored ?_ hc⟩
  · have hrunall := hall.run_length ha
    rwa [List.length_replicate] at hrunall
  · rw [(hall.loopState (.inl h)).done_iff, htcnt, hall.loopFrame.npix, Nat.add_assoc]
  · rw [List.getElem?_replicate, if_pos (by omega)]

end Sys2Proof.Machine

/-! ### From the header step to the pixel loop (R102 to R106, R117) -/

namespace Sys2Proof.Machine

/-- R106: what a good header starts is the pixel loop, or the image is empty and complete. -/
theorem loopState_initDecode {hd : Header} {s : State} (hh : Claims.InHeader s) (hl : 14 ≤ s.inLen.toNat)
    (hch : hd.channels = 3 ∨ hd.channels = 4)
    (hcap : hd.width.toNat * hd.height.toNat * hd.channels.toNat ≤ s.params.outCapacity) :
    LoopState (initDecode (headerSet hd s)) := by
  by_cases hz : pixelTotal hd.width hd.height = 0
  · exact .inr ⟨if_pos hz, (congrArg BitVec.toNat hz).symm⟩
  · refine .inl ⟨⟨(if_neg hz).trans hh.1, if_neg hz⟩, ?_⟩
    exact
      { image := ⟨hch, hcap⟩
        total := pixelTotal_toNat _ _
        left := Nat.pos_of_ne_zero fun h0 => hz (BitVec.eq_of_toNat_eq h0)
        outpos := (Nat.zero_mul _).symm
        posLow := Nat.le_refl 14
        posHigh := hl
        run := Nat.zero_le _
        cache := cacheZero_inv
        emitted := fun a ha => absurd ha (Nat.not_lt_zero a) }

/-- The header step ends in ERROR or begins the pixel loop, with no pixel emitted and the image's size in NPIX. -/
theorem headerStep_error_or_loopState {s u : State} (hh : Claims.InHeader s) (h : headerStep s = .next u) :
    u.status = .error ∨ (LoopState u ∧ u.pixcnt.toNat = 0 ∧ u.npix.toNat = u.width.toNat * u.height.toNat ∧
      u.inLen = s.inLen ∧ u.inMem = s.inMem ∧ u.params = s.params ∧ u.agenda = s.agenda) := by
  obtain rfl | ⟨hd, hl, -, rfl⟩ := headerStep_cases h
  · exact .inl rfl
  · obtain he | he | ⟨hch, hcap, he⟩ := acceptHeader_cases hd s <;> rw [he]
    · exact .inl rfl
    · exact .inl rfl
    · exact .inr ⟨loopState_initDecode hh hl hch hcap, rfl, pixelTotal_toNat _ _, rfl, rfl, rfl, rfl⟩

/-- The step of a truncated stream enters ERROR with DecodeError. -/
theorem Truncated.coreTurn {t : State} (h : Truncated t) : coreTurn t = .next (raise .decodeError t) :=
  coreTurn_of_truncated h.decoding.inLoop h.run h.fetch

/-- R117 for the loop: as many steps to DONE as pixels are left, or at most as many to ERROR, BUSY until then. -/
theorem LoopState.run_ends {s : State} (h : LoopState s) (ha : s.agenda = []) (hf : Claims.InputLoaded s)
    (hc : s.inLen.toNat ≤ s.params.inCapacity) :
    ∃ (k : Nat) (t : State), Host.Core.run core k s = .next t ∧ BusyBefore k s ∧
      t.width = s.width ∧ t.height = s.height ∧
      (t.status = .done ∧ s.pixcnt.toNat + k = s.npix.toNat ∨
       t.status = .error ∧ s.pixcnt.toNat + k ≤ s.npix.toNat) := by
  obtain ⟨ps, t, hps, hend⟩ := h.exists_end hf hc
  have hframe := hps.loopFrame
  have hta := hframe.agenda.trans ha
  have hcnt := hps.pixcnt
  obtain hdone | htrunc := hend
  · refine ⟨ps.length, t, hps.run_length ha, hps.busyBefore ha (.zero t), hframe.width, hframe.height,
      .inl ⟨hdone.status, ?_⟩⟩
    rw [← hcnt, hdone.pixcnt, hframe.npix]
  · have hturn := htrunc.coreTurn
    refine ⟨ps.length + 1, raise .decodeError t, (hps.run_add ha 1).trans (run_succ_of_coreTurn hta hturn 0),
      hps.busyBefore ha (.succ htrunc.decoding.status hta hturn (.zero _)), hframe.width, hframe.height,
      .inr ⟨rfl, ?_⟩⟩
    have hleft := htrunc.decoding.inv.left
    rw [hcnt, hframe.npix] at hleft
    exact hleft

/-- Settles O51: the header step ends in ERROR, or the loop that it begins ends as `run_ends` says. -/
theorem everyDecodeEnds : Obligations.EveryDecodeEnds := by
  intro s hinv hh ha hf
  obtain ⟨u, hu⟩ := headerStep_total hf hinv.inLen
  have hturn := (coreTurn_of_inHeader hh).trans hu
  obtain herr | ⟨hloop, hcnt, hsize, hinLen, hinMem, hparams, hagenda⟩ := headerStep_error_or_loopState hh hu
  · refine ⟨1, u, run_succ_of_coreTurn ha hturn 0, .inr herr, BusyBefore.succ hh.1 ha hturn (.zero u), fun hd => ?_,
      fun _ => .inl rfl⟩
    cases herr.symm.trans hd
  · have hloaded : Claims.InputLoaded u := by rw [Claims.InputLoaded, hinMem, hinLen]; exact hf
    obtain ⟨k, t, hrun, hbusy, hw, hht, hend⟩ :=
      hloop.run_ends (hagenda.trans ha) hloaded (by rw [hinLen, hparams]; exact hinv.inLen)
    rw [hcnt, hsize, ← hw, ← hht, Nat.zero_add] at hend
    refine ⟨k + 1, t, (run_succ_of_coreTurn ha hturn k).trans hrun, hend.imp And.left And.left,
      BusyBefore.succ hh.1 ha hturn hbusy, fun hd => ?_, fun he => .inr ?_⟩
    · obtain ⟨-, hk⟩ | ⟨he, -⟩ := hend
      · rw [hk, Nat.add_comm]
      · cases he.symm.trans hd
    · obtain ⟨hd, -⟩ | ⟨-, hk⟩ := hend
      · cases hd.symm.trans he
      · rw [Nat.add_comm]; exact Nat.add_le_add_left hk 1

end Sys2Proof.Machine

/-! ### The image of a stream (R107, R118) -/

namespace Sys2Proof.Machine

/-- The rest of the stream: these bytes stand in the input from POS up to IN_LEN. -/
structure StreamAt (s : State) (bytes : List Byte) : Prop where
  holds : Claims.InputHolds s s.pos.toNat bytes
  ends : s.pos.toNat + bytes.length = s.inLen.toNat

/-- The next `n` pixels that `Claims.paint` gives from where the decode stands. -/
def paintFrom (s : State) (n : Nat) (bytes : List Byte) : Option (List Pixel) :=
  Claims.paint n s.run.toNat s.px s.cache.get bytes

theorem inputHolds_right {s : State} {a : Nat} {xs ys : List Byte} (h : Claims.InputHolds s a (xs ++ ys)) :
    Claims.InputHolds s (a + xs.length) ys := by
  obtain ⟨hcap, hread⟩ := h
  rw [List.length_append] at hcap
  refine ⟨by omega, fun j v hj => ?_⟩
  rw [Nat.add_assoc]
  exact hread _ v (by rw [List.getElem?_append_right (Nat.le_add_right _ _), Nat.add_sub_cancel_left, hj])

/-- An opcode at the head of the stream is fetched, and the stream goes on after it. -/
theorem StreamAt.split {s : State} {bytes rest : List Byte} {i : Instr} (h : StreamAt s bytes)
    (hd : decode bytes = .ok (i, rest)) :
    fetch s = .ok (some i) ∧ Claims.InputHolds s (s.pos.toNat + i.length) rest ∧
      s.pos.toNat + i.length + rest.length = s.inLen.toNat := by
  have hends := h.ends
  have hholds := h.holds
  obtain ⟨hw, hlen⟩ := decode_length hd
  obtain ⟨-, hbytes⟩ := encodeOfDecodeIsTheBytes bytes i rest hd
  have hone : decode (encode i) = .ok (i, []) := by
    have := decodeOfEncodeIsTheInstruction i [] hw
    rwa [List.append_nil] at this
  obtain ⟨-, hil⟩ := decode_length hone
  rw [List.length_nil, Nat.add_zero] at hil
  rw [← hbytes] at hholds
  refine ⟨fetch_of_inputHolds hone (inputHolds_left hholds) (by omega), ?_, by omega⟩
  rw [← hil]
  exact inputHolds_right hholds

/-- A stream that holds no whole opcode is truncated at its tag byte or at the operands (R109, R110). -/
theorem StreamAt.fetch_of_error {s : State} {bytes : List Byte} {e : Reject} (h : StreamAt s bytes)
    (hd : decode bytes = .error e) : fetch s = .ok none := by
  have hends := h.ends
  obtain rfl | ⟨b0, more, rfl, hlt⟩ := (decodeRefusesOnlyTruncation bytes).1 ⟨e, hd⟩
  · exact fetch_of_missing (Nat.le_of_eq hends.symm)
  · have h0 : inRead s s.pos.toNat = .ok b0 := inRead_of_inputHolds h.holds (j := 0) rfl
    rw [List.length_cons] at hends hlt
    exact fetch_of_truncated (by omega) h0 (by rw [← hends]; omega)

/-- An opcode makes of PX what `Claims.pixelAfter` says. -/
theorem exec_px {i : Instr} {s v : State} (h : exec i s = .next v) :
    v.px = Claims.pixelAfter s.px s.cache.get i := by
  cases i <;> (cases h; rfl)

/-- A well-formed opcode read with RUN = 0 leaves in RUN what `Claims.runAfter` says. -/
theorem exec_run_toNat {i : Instr} {s v : State} (h : exec i s = .next v) (hw : i.WellFormed) (hr : s.run = 0) :
    v.run.toNat = Claims.runAfter i := by
  have hzero : s.run.toNat = 0 := by rw [hr]; rfl
  cases i with
  | runShort n => exact (exec_runOpcode (.inl rfl) hw h).1
  | runLong n => exact (exec_runOpcode (.inr rfl) hw h).1
  | index k => cases h; exact hzero
  | diffSmall dr dg db => cases h; exact hzero
  | diffMedium dr dg db => cases h; exact hzero
  | diffLarge vr vg vb va => cases h; exact hzero
  | literal r g b a => cases h; exact hzero

/-- The cache after an opcode, as a function of the slot (R112, R113). -/
theorem exec_cache_get {i : Instr} {s v : State} (h : exec i s = .next v) :
    v.cache.get = if Claims.writesCache i then
      fun k => if k.val = Claims.slotNumber v.px then v.px else s.cache.get k else s.cache.get := by
  cases hw : Claims.writesCache i with
  | false => rw [exec_keeps_cache h hw]; rfl
  | true => exact funext (exec_slotWritten h hw)

section
variable {s v u : State} (hv : Readied s v) (hu : finishPixel v = .next u)
include hv hu

/-- One pixel step is one pixel of `Claims.paint`. -/
theorem StreamAt.pixel {bytes : List Byte} (h : StreamAt s bytes) :
    ∃ rest, StreamAt u rest ∧ ∀ n, paintFrom s (n + 1) bytes = (paintFrom u n rest).map (v.px :: ·) := by
  have hframe := loopFrame_of_pixel hv hu
  obtain ⟨hpx, hcache, hrun, hpos⟩ := finishPixel_regs hu
  have stream {rest : List Byte} (hin : Claims.InputHolds s v.pos.toNat rest)
      (hend : v.pos.toNat + rest.length = s.inLen.toNat) : StreamAt u rest := by
    refine ⟨?_, by rw [hpos, hframe.inLen]; exact hend⟩
    rw [Claims.InputHolds, hpos, hframe.params, hframe.inMem]
    exact hin
  simp only [paintFrom, hpx, hcache, hrun]
  obtain ⟨hr, i, hf, hexec⟩ | ⟨hr, rfl⟩ := hv
  · have hzero : s.run.toNat = 0 := by rw [hr]; rfl
    cases hd : decode bytes with
    | error e => cases hf.symm.trans (h.fetch_of_error hd)
    | ok out =>
      obtain ⟨j, rest⟩ := out
      obtain ⟨hw, hlen⟩ := decode_length hd
      obtain ⟨hj, hin, hend⟩ := h.split hd
      cases hf.symm.trans hj
      have hvpos := exec_pos_toNat hexec (by omega)
      refine ⟨rest, stream (by rw [hvpos]; exact hin) (by rw [hvpos]; exact hend), fun n => ?_⟩
      simp only [hzero, Claims.paint, hd]
      rw [exec_cache_get hexec, exec_run_toNat hexec hw hr, exec_px hexec]
  · refine ⟨bytes, stream h.holds h.ends, fun n => ?_⟩
    obtain ⟨r, hr⟩ := Nat.exists_eq_succ_of_ne_zero (BitVec.toNat_ne.1 hr)
    have hdec : (s.run - 1).toNat = r := by bv_omega
    simp only [hdec, hr, Claims.paint]

end

/-- The pixels the core emits are the first that `Claims.paint` gives, and the rest of them are those from there on. -/
theorem Emits.paint {s t : State} {ps : List Pixel} {bytes : List Byte} (h : Emits s ps t) (hb : StreamAt s bytes) :
    ∃ rest, StreamAt t rest ∧ ∀ n, paintFrom s (ps.length + n) bytes = (paintFrom t n rest).map (ps ++ ·) := by
  induction h generalizing bytes with
  | nil s => exact ⟨bytes, hb, fun n => by simp⟩
  | cons _ hv hu _ ih =>
    obtain ⟨mid, hmid, hone⟩ := hb.pixel hv hu
    obtain ⟨rest, hrest, hmore⟩ := ih hmid
    refine ⟨rest, hrest, fun n => ?_⟩
    rw [List.length_cons, Nat.add_right_comm, hone, hmore, Option.map_map]
    rfl

/-- Where the core meets the end of the stream, `Claims.paint` has no pixel either. -/
theorem Truncated.paintFrom_none {t : State} {bytes : List Byte} (h : Truncated t) (hb : StreamAt t bytes) (n : Nat) :
    paintFrom t (n + 1) bytes = none := by
  have hzero : t.run.toNat = 0 := by rw [h.run]; rfl
  cases hd : decode bytes with
  | error e => simp only [paintFrom, hzero, Claims.paint, hd]
  | ok out => cases (hb.split hd).1.symm.trans h.fetch

/-- A loop with `n` pixels left and its whole stream in the input completes the image that `Claims.paint` gives, or is
truncated where it gives none. -/
theorem LoopState.emits_paint {s : State} {bytes : List Byte} {n : Nat} (h : LoopState s) (hb : StreamAt s bytes)
    (hf : Claims.InputLoaded s) (hc : s.inLen.toNat ≤ s.params.inCapacity)
    (hn : s.npix.toNat = s.pixcnt.toNat + n) :
    ∃ ps t, Emits s ps t ∧
      (Complete t ∧ ps.length = n ∧ paintFrom s n bytes = some ps ∨ Truncated t ∧ paintFrom s n bytes = none) := by
  obtain ⟨ps, t, hps, hend⟩ := h.exists_end hf hc
  obtain ⟨rest, hrest, hpaint⟩ := hps.paint hb
  have hcnt := hps.pixcnt
  have hnpix := hps.loopFrame.npix
  refine ⟨ps, t, hps, hend.imp (fun hdone => ?_) fun htrunc => ⟨htrunc, ?_⟩⟩
  · have hlen : ps.length = n := by
      have hlast := hdone.pixcnt
      rw [hnpix] at hlast
      omega
    refine ⟨hdone, hlen, ?_⟩
    have hall := hpaint 0
    rw [Nat.add_zero, hlen] at hall
    rw [hall, paintFrom, Claims.paint, Option.map_some, List.append_nil]
  · have hleft := htrunc.decoding.inv.left
    rw [hnpix] at hleft
    obtain ⟨m, rfl⟩ : ∃ m, n = ps.length + (m + 1) := ⟨n - ps.length - 1, by omega⟩
    rw [hpaint, htrunc.paintFrom_none hrest, Option.map_none]

/-- Bytes that make up the whole input give every byte below IN_LEN a value. -/
theorem inputLoaded_of_inputHolds {s : State} {bytes : List Byte} (h : Claims.InputHolds s 0 bytes)
    (hl : s.inLen.toNat = bytes.length) : Claims.InputLoaded s := by
  intro a ha
  obtain ⟨v, hv⟩ : ∃ v, bytes[a]? = some v := ⟨bytes[a]'(by omega), List.getElem?_eq_getElem (by omega)⟩
  exact ⟨v, by rw [← h.2 a v hv, Nat.zero_add]⟩

/-- The header step of an encoded header that is good (R84, R104 to R106). -/
theorem coreTurn_of_encodeHeader {s : State} {w h : BitVec 32} {ch cs : Byte} (hh : Claims.InHeader s)
    (hl : 14 ≤ s.inLen.toNat) (hb : Claims.InputHolds s 0 (encodeHeader w h ch cs)) (hch : ch = 3 ∨ ch = 4)
    (hcap : w.toNat * h.toNat * ch.toNat ≤ s.params.outCapacity) :
    coreTurn s = .next (initDecode (headerSet ⟨w, h, ch, cs⟩ s)) := by
  have hturn := coreTurn_of_inputHolds hh hl hb
  rwa [be32_bytes, be32_bytes, acceptHeader_good hch hcap] at hturn

/-- Where a good header leaves the decode, `Claims.paint` begins (R25, R26, R106). -/
theorem paintFrom_initDecode (s : State) (n : Nat) (bytes : List Byte) :
    paintFrom (initDecode s) n bytes = Claims.paint n 0 ⟨0, 0, 0, 255⟩ (fun _ => ⟨0, 0, 0, 0⟩) bytes := by
  have hcache : (initDecode s).cache.get = fun _ => ⟨0, 0, 0, 0⟩ := funext cacheZero_get
  rw [paintFrom, hcache]
  rfl

/-- With a good header before it, a stream that ends the input is decoded from POS = 14 on as `emits_paint` says. -/
theorem emits_paint_of_encodeHeader {s : State} {w h : BitVec 32} {ch cs : Byte} {stream : List Byte}
    (hh : Claims.InHeader s) (hch : ch = 3 ∨ ch = 4)
    (hb : Claims.InputHolds s 0 (encodeHeader w h ch cs ++ stream)) (hlen : s.inLen.toNat = 14 + stream.length)
    (hcap : w.toNat * h.toNat * ch.toNat ≤ s.params.outCapacity) :
    ∃ ps t, Emits (initDecode (headerSet ⟨w, h, ch, cs⟩ s)) ps t ∧
      (Complete t ∧ ps.length = w.toNat * h.toNat ∧
        Claims.paint (w.toNat * h.toNat) 0 ⟨0, 0, 0, 255⟩ (fun _ => ⟨0, 0, 0, 0⟩) stream = some ps ∨
       Truncated t ∧ Claims.paint (w.toNat * h.toNat) 0 ⟨0, 0, 0, 255⟩ (fun _ => ⟨0, 0, 0, 0⟩) stream = none) := by
  have hbytes : s.inLen.toNat = (encodeHeader w h ch cs ++ stream).length := by rw [hlen, List.length_append]; rfl
  have hinLen : s.inLen.toNat ≤ s.params.inCapacity := by have := hb.1; omega
  have hloop := loopState_initDecode (hd := ⟨w, h, ch, cs⟩) hh (by omega) hch hcap
  have hstream : StreamAt (initDecode (headerSet ⟨w, h, ch, cs⟩ s)) stream := ⟨inputHolds_right hb, hlen.symm⟩
  have hloaded : Claims.InputLoaded (initDecode (headerSet ⟨w, h, ch, cs⟩ s)) := inputLoaded_of_inputHolds hb hbytes
  have hsize : (initDecode (headerSet ⟨w, h, ch, cs⟩ s)).npix.toNat = 0 + w.toNat * h.toNat := by
    rw [Nat.zero_add]; exact pixelTotal_toNat w h
  simp only [← paintFrom_initDecode (headerSet ⟨w, h, ch, cs⟩ s)]
  exact hloop.emits_paint hstream hloaded hinLen hsize

/-- Settles O52: the header step, then the pixels that `Claims.paint` gives; where it gives none, one step more, into
ERROR. -/
theorem decodeComputesTheReferenceImage : Obligations.DecodeComputesTheReferenceImage := by
  intro s w h ch cs stream hh ha hch hb hlen hcap
  have hturn := coreTurn_of_encodeHeader hh (by omega) (inputHolds_left hb) hch hcap
  obtain ⟨ps, t, hps, hend⟩ := emits_paint_of_encodeHeader hh hch hb hlen hcap
  have hframe := hps.loopFrame
  have hrun (k : Nat) : Host.Core.run core (ps.length + k + 1) s = Host.Core.run core k t :=
    (run_succ_of_coreTurn ha hturn _).trans (hps.run_add ha k)
  obtain ⟨hdone, hcount, hpaint⟩ | ⟨htrunc, hpaint⟩ := hend <;> rw [hpaint]
  · refine ⟨fun image himage => ?_, fun hnone => (by cases hnone)⟩
    cases himage
    refine ⟨t, ?_, hdone.status, hframe.width, hframe.height, hframe.channels, hframe.colorspace, hcount,
      fun i c p hp hc => ?_⟩
    · rw [Nat.add_comm, ← hcount]; exact hrun 0
    · have hpix := hps.stored hp hc
      rwa [show (initDecode (headerSet ⟨w, h, ch, cs⟩ s)).outpos.toNat = 0 from rfl, Nat.zero_add] at hpix
  · refine ⟨fun image himage => (by cases himage), fun _ => ?_⟩
    exact ⟨_, _, (hrun 1).trans (run_succ_of_coreTurn (hframe.agenda.trans ha) htrunc.coreTurn 0), rfl, rfl⟩

end Sys2Proof.Machine
end

section
/-! PROOFS. The cache-reference and run-length opcodes (spec/41_index_run.md): what INDEX and the runs leave, and that a
slot gives back its pixel as long as no opcode writes it again. -/

namespace Sys2Proof.Machine

/-! ### A cache slot over opcodes (R134) -/

theorem slotNumber_lt (p : Pixel) : Claims.slotNumber p < 64 := Nat.mod_lt _ (by decide)

/-- An opcode that does not write slot `k` keeps it (R112, R113). -/
theorem exec_keeps_slot {i : Instr} {s t : State} {k : Fin 64} (h : exec i s = .next t)
    (hk : Claims.writesCache i = true → Claims.slotNumber t.px ≠ k.val) : t.cache.get k = s.cache.get k := by
  cases hw : Claims.writesCache i with
  | false => rw [exec_keeps_cache h hw]
  | true => rw [exec_slotWritten h hw k, if_neg (hk hw).symm]

/-- Opcodes none of which writes slot `k` keep it, one after another. -/
theorem execAll_keeps_slot {is : List Instr} {s u : State} {k : Fin 64} (hspare : Claims.SparesSlot k.val is s)
    (h : Claims.execAll is s = .next u) : u.cache.get k = s.cache.get k := by
  induction is generalizing s with
  | nil => cases h; rfl
  | cons i is ih =>
    obtain ⟨t, ht, hu⟩ := andThen_eq_next h
    obtain ⟨hslot, hrest⟩ := hspare t ht
    calc u.cache.get k
      _ = t.cache.get k := ih hrest hu
      _ = s.cache.get k := exec_keeps_slot ht hslot

/-- Settles O18: the opcode writes its pixel into the pixel's slot, the opcodes in between keep the slot, and INDEX reads
it. -/
theorem indexAfterACacheWriteGivesThePixel : Obligations.IndexAfterACacheWriteGivesThePixel := by
  intro i between s t u hw hi hspare hbetween
  let k : Fin 64 := Fin.ofNat 64 (Claims.slotNumber t.px)
  have hk : k.val = Claims.slotNumber t.px := Nat.mod_eq_of_lt (slotNumber_lt t.px)
  obtain ⟨v, hv, -⟩ := exec_next (.index k) u
  refine ⟨v, hv, ?_⟩
  calc v.px
    _ = u.cache.get k := exec_px hv
    _ = t.cache.get k := execAll_keeps_slot (hk ▸ hspare) hbetween
    _ = t.px := by rw [exec_slotWritten hi hw k, if_pos hk]

/-! ### The opcodes one by one (R130 to R132) -/

/-- Settles O10: of the slot PX is a copy; RUN and the cache are not written. -/
theorem indexCopiesTheSlot : Obligations.IndexCopiesTheSlot := by
  intro k s
  obtain ⟨t, ht, -⟩ := exec_next (.index k) s
  exact ⟨t, ht, exec_px ht, exec_pos ht, exec_keeps_run ht (by simp) (by simp), exec_keeps_cache ht rfl,
    exec_opcodeFrame ht⟩

/-- R131, R132: every well-formed run opcode answers a next state; the two differ in their length only. -/
theorem exec_runOpcode_next {i : Instr} {n : Nat} (hi : i = .runShort n ∨ i = .runLong n) (hw : i.WellFormed)
    (s : State) : ∃ t, exec i s = .next t ∧ t.run.toNat = n ∧ t.pos = s.pos + BitVec.ofNat 32 i.length ∧
      t.px = s.px ∧ t.cache = s.cache ∧ Claims.OpcodeFrame s t := by
  obtain ⟨t, ht, -⟩ := exec_next i s
  obtain ⟨hrun, hpx, hcache⟩ := exec_runOpcode hi hw ht
  exact ⟨t, ht, hrun, exec_pos ht, hpx, hcache, exec_opcodeFrame ht⟩

/-- Settles O11: RUN-short is a run opcode of one byte, well formed up to 31. -/
theorem runShortSetsTheCounter : Obligations.RunShortSetsTheCounter :=
  fun _ s hn => exec_runOpcode_next (.inl rfl) (decide_eq_true hn) s

/-- Settles O12: RUN-long is a run opcode of two bytes, well formed from 32 to 8223. -/
theorem runLongSetsTheCounter : Obligations.RunLongSetsTheCounter :=
  fun _ s hn => exec_runOpcode_next (.inr rfl) (decide_eq_true hn) s

end Sys2Proof.Machine
end

section
/-! PROOFS. The delta opcodes (spec/42_diff.md): the sums of DIFF-small and DIFF-medium modulo 256, one opcode and many,
and the four values that DIFF-large assigns. -/

namespace Sys2Proof.Machine

/-! ### Adding deltas to a pixel (R153) -/

theorem addDelta_zero (ch : Byte) : addDelta ch 0 = ch := by
  apply BitVec.eq_of_toNat_eq
  have := addDelta_toNat ch 0
  omega

theorem addDelta_addDelta (ch : Byte) (d e : Int) : addDelta (addDelta ch d) e = addDelta ch (d + e) := by
  apply BitVec.eq_of_toNat_eq
  have hd := addDelta_toNat ch d
  have he := addDelta_toNat (addDelta ch d) e
  have hsum := addDelta_toNat ch (d + e)
  omega

theorem addRGB_zero (p : Pixel) : addRGB p 0 0 0 = p := by
  simp only [addRGB, addDelta_zero]

theorem addRGB_addRGB (p : Pixel) (dr dg db er eg eb : Int) :
    addRGB (addRGB p dr dg db) er eg eb = addRGB p (dr + er) (dg + eg) (db + eb) := by
  simp only [addRGB, addDelta_addDelta]

/-- The channels of a pixel with deltas added, as the statements say them. -/
theorem channels_of_eq_addRGB {p q : Pixel} {dr dg db : Int} (h : q = addRGB p dr dg db) :
    (q.r.toNat : Int) = (p.r.toNat + dr) % 256 ∧ (q.g.toNat : Int) = (p.g.toNat + dg) % 256 ∧
    (q.b.toNat : Int) = (p.b.toNat + db) % 256 ∧ q.a = p.a := by
  subst h
  exact ⟨addDelta_toNat p.r dr, addDelta_toNat p.g dg, addDelta_toNat p.b db, rfl⟩

/-! ### One delta opcode (R150 to R152) -/

/-- Every opcode that writes the cache answers a next state, with the new pixel in its slot; RUN stays (R112). -/
theorem exec_cacheWriter_next {i : Instr} (hw : Claims.writesCache i = true) (s : State) :
    ∃ t, exec i s = .next t ∧ t.px = Claims.pixelAfter s.px s.cache.get i ∧
      t.pos = s.pos + BitVec.ofNat 32 i.length ∧ t.run = s.run ∧ Claims.SlotWritten s.cache t.cache t.px ∧
      Claims.OpcodeFrame s t := by
  obtain ⟨t, ht, -⟩ := exec_next i s
  have hrun : t.run = s.run := exec_keeps_run ht (by rintro n rfl; cases hw) (by rintro n rfl; cases hw)
  exact ⟨t, ht, exec_px ht, exec_pos ht, hrun, exec_slotWritten ht hw, exec_opcodeFrame ht⟩

theorem deltas_eq_some_iff {i : Instr} {dr dg db : Int} : Claims.deltas i = some (dr, dg, db) ↔
    i = .diffSmall dr dg db ∨ i = .diffMedium dr dg db := by
  cases i <;> simp [Claims.deltas]

/-- DIFF-small and DIFF-medium add their deltas to PX and write the cache; they differ in their length only. -/
theorem exec_additive_next {i : Instr} {dr dg db : Int} (hd : Claims.deltas i = some (dr, dg, db)) (s : State) :
    ∃ t, exec i s = .next t ∧ t.px = addRGB s.px dr dg db ∧
      t.pos = s.pos + BitVec.ofNat 32 i.length ∧ t.run = s.run ∧ Claims.SlotWritten s.cache t.cache t.px ∧
      Claims.OpcodeFrame s t := by
  obtain rfl | rfl := deltas_eq_some_iff.1 hd <;> exact exec_cacheWriter_next rfl s

/-- `exec_additive_next`, with the channels as the statements say them. -/
theorem exec_additive_channels {i : Instr} {dr dg db : Int} (hd : Claims.deltas i = some (dr, dg, db)) (s : State) :
    ∃ t, exec i s = .next t ∧
      (t.px.r.toNat : Int) = (s.px.r.toNat + dr) % 256 ∧
      (t.px.g.toNat : Int) = (s.px.g.toNat + dg) % 256 ∧
      (t.px.b.toNat : Int) = (s.px.b.toNat + db) % 256 ∧
      t.px.a = s.px.a ∧ t.pos = s.pos + BitVec.ofNat 32 i.length ∧ t.run = s.run ∧
      Claims.SlotWritten s.cache t.cache t.px ∧ Claims.OpcodeFrame s t := by
  obtain ⟨t, ht, hpx, hrest⟩ := exec_additive_next hd s
  obtain ⟨hr, hg, hb, ha⟩ := channels_of_eq_addRGB hpx
  exact ⟨t, ht, hr, hg, hb, ha, hrest⟩

/-- Settles O13: DIFF-small is an additive opcode of one byte. -/
theorem diffSmallAddsModulo256 : Obligations.DiffSmallAddsModulo256 :=
  fun _ _ _ s => exec_additive_channels rfl s

/-- Settles O14: DIFF-medium is an additive opcode of two bytes. -/
theorem diffMediumAddsModulo256 : Obligations.DiffMediumAddsModulo256 :=
  fun _ _ _ s => exec_additive_channels rfl s

/-- Settles O15: each new channel is `channelOf` its value, in which no old channel occurs. -/
theorem diffLargeReplacesEveryChannel : Obligations.DiffLargeReplacesEveryChannel := by
  intro vr vg vb va s
  obtain ⟨t, ht, hpx, hrest⟩ := exec_cacheWriter_next (i := .diffLarge vr vg vb va) rfl s
  have hassigned : t.px = ⟨channelOf vr, channelOf vg, channelOf vb, channelOf va⟩ := hpx
  refine ⟨t, ht, ?_, ?_, ?_, ?_, hrest⟩ <;> rw [hassigned] <;> exact channelOf_toNat _

/-- An additive opcode whose deltas are zero keeps PX and still writes the cache (R154). -/
theorem exec_zeroDeltas {i : Instr} (hd : Claims.deltas i = some (0, 0, 0)) (s : State) :
    ∃ t, exec i s = .next t ∧ t.px = s.px ∧ Claims.SlotWritten s.cache t.cache s.px := by
  obtain ⟨t, ht, hpx, -, -, hslot, -⟩ := exec_additive_next hd s
  rw [addRGB_zero] at hpx
  exact ⟨t, ht, hpx, hpx ▸ hslot⟩

/-- Settles O19: the two byte strings are the encodings of DIFF-small and DIFF-medium with zero deltas. -/
theorem zeroDeltasKeepThePixel : Obligations.ZeroDeltasKeepThePixel := by
  intro s
  obtain ⟨t, ht⟩ := exec_zeroDeltas (i := .diffSmall 0 0 0) rfl s
  obtain ⟨u, hu⟩ := exec_zeroDeltas (i := .diffMedium 0 0 0) rfl s
  exact ⟨⟨_, t, decode_encode_diffSmall (dr := 0) (dg := 0) (db := 0) (by decide) (by decide) (by decide) [], ht⟩,
    ⟨_, u, decode_encode_diffMedium (dr := 0) (dg := 0) (db := 0) (by decide) (by decide) (by decide) [], hu⟩⟩

/-! ### Delta opcodes one after another (R155) -/

/-- Opcodes never stop, so neither do they one after another. -/
theorem execAll_next (is : List Instr) (s : State) : ∃ t, Claims.execAll is s = .next t := by
  induction is generalizing s with
  | nil => exact ⟨s, rfl⟩
  | cons i is ih =>
    obtain ⟨t, ht, -⟩ := exec_next i s
    obtain ⟨u, hu⟩ := ih t
    exact ⟨u, by rw [Claims.execAll, ht, andThen_next, hu]⟩

/-- DIFF-small and DIFF-medium opcodes one after another add the sums of their deltas to PX. -/
theorem execAll_additive_px {is : List Instr} {s t : State} (his : ∀ i ∈ is, (Claims.deltas i).isSome = true)
    (h : Claims.execAll is s = .next t) :
    t.px = addRGB s.px (Claims.deltaSum is).1 (Claims.deltaSum is).2.1 (Claims.deltaSum is).2.2 := by
  induction is generalizing s with
  | nil => cases h; exact (addRGB_zero _).symm
  | cons i is ih =>
    obtain ⟨hi, hrest⟩ := List.forall_mem_cons.1 his
    obtain ⟨⟨dr, dg, db⟩, hd⟩ := Option.isSome_iff_exists.1 hi
    obtain ⟨u, hu, ht⟩ := andThen_eq_next h
    have hupx : u.px = addRGB s.px dr dg db := by
      obtain ⟨u', hu', hpx, -⟩ := exec_additive_next hd s
      cases hu.symm.trans hu'
      exact hpx
    rw [ih hrest ht, hupx, addRGB_addRGB, Claims.deltaSum, hd, Option.getD_some]

theorem deltaSum_eq_sum (is : List Instr) :
    Claims.deltaSum is = (is.map fun i => (Claims.deltas i).getD (0, 0, 0)).sum := by
  induction is with
  | nil => rfl
  | cons i is ih => rw [List.map_cons, List.sum_cons, ← ih]; rfl

/-- The order of the deltas does not affect their sums. -/
theorem deltaSum_perm {js is : List Instr} (h : js.Perm is) : Claims.deltaSum js = Claims.deltaSum is := by
  rw [deltaSum_eq_sum, deltaSum_eq_sum]
  exact (h.map _).sum_eq

/-- Settles O20: PX changes by the sums of the deltas, and these are equal for every order. -/
theorem deltasCompose : Obligations.DeltasCompose := by
  intro is s his
  obtain ⟨t, ht⟩ := execAll_next is s
  have hpx := execAll_additive_px his ht
  obtain ⟨hr, hg, hb, ha⟩ := channels_of_eq_addRGB hpx
  refine ⟨t, ht, hr, hg, hb, ha, fun js hperm => ?_⟩
  obtain ⟨u, hu⟩ := execAll_next js s
  refine ⟨u, hu, ?_⟩
  rw [execAll_additive_px (fun i hi => his i (hperm.mem_iff.1 hi)) hu, deltaSum_perm hperm, hpx]

end Sys2Proof.Machine
end

section
/-! PROOFS. The literal opcode (spec/43_literal.md): the channels it assigns and those it keeps. -/

namespace Sys2Proof.Machine

/-- R170 of one channel, as the statements say it. -/
theorem assigned_of_eq_getD {old new : Byte} {o : Option Byte} (h : new = o.getD old) :
    (∀ v, o = some v → new = v) ∧ (o = none → new = old) := by
  subst h
  exact ⟨by rintro v rfl; rfl, by rintro rfl; rfl⟩

/-- A LITERAL is its tag byte and the values given (R72, R81). -/
theorem literal_length (r g b a : Option Byte) :
    (Instr.literal r g b a).length = 1 + (r.toList ++ g.toList ++ b.toList ++ a.toList).length := by
  obtain ⟨hlen, -⟩ := Laws.EncodeLength.literal r g b a
  obtain ⟨b0, he, -⟩ := encode_literal r g b a
  rw [← hlen, he, List.length_cons, Nat.add_comm]

/-- Settles O16: LITERAL writes the cache as every opcode that makes a pixel does, and each new channel is the value given
or else the old channel. -/
theorem literalAssignsTheFlaggedChannels : Obligations.LiteralAssignsTheFlaggedChannels := by
  intro r g b a s
  obtain ⟨t, ht, hpx, hpos, hrest⟩ := exec_cacheWriter_next (i := .literal r g b a) rfl s
  rw [literal_length] at hpos
  obtain ⟨hr, hr'⟩ := assigned_of_eq_getD (congrArg Pixel.r hpx)
  obtain ⟨hg, hg'⟩ := assigned_of_eq_getD (congrArg Pixel.g hpx)
  obtain ⟨hb, hb'⟩ := assigned_of_eq_getD (congrArg Pixel.b hpx)
  obtain ⟨ha, ha'⟩ := assigned_of_eq_getD (congrArg Pixel.a hpx)
  exact ⟨t, ht, hr, hr', hg, hg', hb, hb', ha, ha', hpos, hrest⟩

end Sys2Proof.Machine
end

section
/-! PROOFS. The raster port (spec/44_raster_port.md): where a pixel stands in OUT, what GET answers there, what SET stores,
and a GET right after a SET. -/

namespace Sys2Proof.Machine

/-! ### The raster address of a pixel (R56, R181) -/

theorem inBounds_eq_false {s : State} {x y : BitVec 32} (h : s.width.toNat ≤ x.toNat ∨ s.height.toNat ≤ y.toNat) :
    inBounds s x y = false := by
  rw [← Bool.not_eq_true, inBounds_iff]
  omega

/-- A pixel inside the image stands inside the raster. -/
theorem rasterOffset_inside {s : State} {x y : BitVec 32} (hx : x.toNat < s.width.toNat)
    (hy : y.toNat < s.height.toNat) : rasterOffset s x y + s.channels.toNat ≤ rasterSize s := by
  have hindex : y.toNat * s.width.toNat + x.toNat + 1 ≤ s.width.toNat * s.height.toNat := by
    calc y.toNat * s.width.toNat + x.toNat + 1
        ≤ (y.toNat + 1) * s.width.toNat := by rw [Nat.succ_mul]; omega
      _ ≤ s.height.toNat * s.width.toNat := Nat.mul_le_mul_right _ hy
      _ = s.width.toNat * s.height.toNat := Nat.mul_comm _ _
  rw [rasterOffset, rasterSize, ← Nat.succ_mul]
  exact Nat.mul_le_mul_right _ hindex

/-- The row-major number of a pixel names its row and its column. -/
theorem rasterIndex_inj {w x y x' y' : Nat} (hx : x < w) (hx' : x' < w) (h : y' * w + x' = y * w + x) :
    x' = x ∧ y' = y := by
  have hw : 0 < w := Nat.zero_lt_of_lt hx
  have hcol := congrArg (· % w) h
  have hrow := congrArg (· / w) h
  simp only [Nat.mul_comm _ w, Nat.mul_add_mod, Nat.mod_eq_of_lt hx, Nat.mod_eq_of_lt hx'] at hcol
  simp only [Nat.mul_comm _ w, Nat.mul_add_div hw, Nat.div_eq_of_lt hx, Nat.div_eq_of_lt hx', Nat.add_zero] at hrow
  exact ⟨hcol, hrow⟩

/-- Different pixels share no byte. -/
theorem rasterOffset_disjoint {s : State} {x y x' y' : BitVec 32} (hx : x.toNat < s.width.toNat)
    (hx' : x'.toNat < s.width.toNat) (hne : x' ≠ x ∨ y' ≠ y) :
    rasterOffset s x' y' + s.channels.toNat ≤ rasterOffset s x y ∨
    rasterOffset s x y + s.channels.toNat ≤ rasterOffset s x' y' := by
  have hindex : y'.toNat * s.width.toNat + x'.toNat ≠ y.toNat * s.width.toNat + x.toNat := fun h => by
    obtain ⟨hcol, hrow⟩ := rasterIndex_inj hx hx' h
    exact hne.elim (· (BitVec.eq_of_toNat_eq hcol)) (· (BitVec.eq_of_toNat_eq hrow))
  simp only [rasterOffset, ← Nat.succ_mul]
  exact (Nat.lt_or_gt_of_ne hindex).imp (Nat.mul_le_mul_right _) (Nat.mul_le_mul_right _)

/-! ### GET and SET of a pixel of the image (R181, R183, R184) -/

/-- `p` is what GET finds at address `o` of an OUT of `ch` channels: its stored channels are the bytes there, and A is 255
where no A is stored. -/
def PixelAt (ch : Byte) (m : List Host.Cell) (o : Nat) (p : Pixel) : Prop :=
  (∀ c < ch.toNat, Memory.read m (o + c) = some (Claims.chan p c)) ∧ (ch = 3 → p.a = 255)

/-- The pixel that GET shows where the stored channels are those of `p` (R184, R186 (a)). -/
def shownPixel (ch : Byte) (p : Pixel) : Pixel := if ch = 4 then p else ⟨p.r, p.g, p.b, 255⟩

/-- The stored channels are shown as they are. -/
theorem chan_shownPixel {ch : Byte} (hch : ch = 3 ∨ ch = 4) (p : Pixel) {c : Nat} (hc : c < ch.toNat) :
    Claims.chan (shownPixel ch p) c = Claims.chan p c := by
  obtain rfl | rfl := hch
  · obtain rfl | rfl | rfl : c = 0 ∨ c = 1 ∨ c = 2 := by
      have : c < 3 := hc
      omega
    all_goals rfl
  · rfl

/-- The bytes of a pixel are read as that pixel, shown. -/
theorem pixelAt_shownPixel {ch : Byte} {m : List Host.Cell} {o : Nat} {p : Pixel} (hch : ch = 3 ∨ ch = 4)
    (h : ∀ c < ch.toNat, Memory.read m (o + c) = some (Claims.chan p c)) : PixelAt ch m o (shownPixel ch p) := by
  refine ⟨fun c hc => ?_, fun h3 => ?_⟩
  · rw [chan_shownPixel hch p hc, h c hc]
  · rw [h3]; rfl

theorem readPixel_of_pixelAt {s : State} {o : Nat} {p : Pixel} (hch : s.channels = 3 ∨ s.channels = 4)
    (hfit : o + s.channels.toNat ≤ s.params.outCapacity) (hp : PixelAt s.channels s.outMem o p) :
    readPixel s o = .ok p := by
  obtain ⟨hbytes, halpha⟩ := hp
  have hread (c : Nat) (hc : c < s.channels.toNat) : outRead s (o + c) = .ok (Claims.chan p c) :=
    outRead_ok_iff.2 ⟨by omega, hbytes c hc⟩
  have hthree : 3 ≤ s.channels.toNat := by obtain hch | hch := hch <;> rw [hch] <;> decide
  have hr : outRead s o = .ok p.r := hread 0 (by omega)
  have hg : outRead s (o + 1) = .ok p.g := hread 1 (by omega)
  have hb : outRead s (o + 2) = .ok p.b := hread 2 (by omega)
  obtain hch | hch := hch
  · have ha : alphaOfThreeChannel = p.a := (halpha hch).symm
    simp only [readPixel, hr, hg, hb, bind, Except.bind, hch, ha]
    rfl
  · have ha : outRead s (o + 3) = .ok p.a := hread 3 (by rw [hch]; decide)
    simp only [readPixel, hr, hg, hb, bind, Except.bind, hch, if_pos, ha]

/-- Every pixel of a complete image can be read. -/
theorem DoneInv.exists_pixelAt {s : State} {x y : BitVec 32} (h : DoneInv s) (hx : x.toNat < s.width.toNat)
    (hy : y.toNat < s.height.toNat) : ∃ p, PixelAt s.channels s.outMem (rasterOffset s x y) p := by
  have hinside := rasterOffset_inside hx hy
  have hbyte (c : Nat) (hc : c < s.channels.toNat) :
      ∃ v, Memory.read s.outMem (rasterOffset s x y + c) = some v := h.complete _ (by omega)
  choose! f hf using hbyte
  refine ⟨_, pixelAt_shownPixel (p := ⟨f 0, f 1, f 2, f 3⟩) h.image.channels fun c hc => ?_⟩
  have hfour : s.channels.toNat ≤ 4 := by obtain hch | hch := h.image.channels <;> rw [hch] <;> decide
  rw [hf c hc]
  obtain rfl | rfl | rfl | rfl : c = 0 ∨ c = 1 ∨ c = 2 ∨ c = 3 := by omega
  all_goals rfl

section
variable {s u : State} {x y : BitVec 32} {p : Pixel}

/-- GET of a pixel inside the image answers what stands there and does nothing else. -/
theorem step_getPixel (hu : TurnOf s (.host (.getPixel x y)) u) (hs : u.status = .done) (hi : ImageInv u)
    (hx : x.toNat < u.width.toNat) (hy : y.toNat < u.height.toNat)
    (hp : PixelAt u.channels u.outMem (rasterOffset u x y) p) :
    step s = .next { u with answer := some (.pixel p) } := by
  have hfit := (rasterOffset_inside hx hy).trans hi.fits
  rw [step_host hu]
  exact hostGet_next_iff.2 ⟨hs, .inl ⟨inBounds_iff.2 ⟨hx, hy⟩, p, readPixel_of_pixelAt hi.channels hfit hp, rfl⟩⟩

/-- SET of a pixel inside an image that fits stores its bytes and does nothing else. -/
theorem step_setPixel (hu : TurnOf s (.host (.setPixel x y p)) u) (hs : u.status = .done) (hi : ImageInv u)
    (hx : x.toNat < u.width.toNat) (hy : y.toNat < u.height.toNat) : step s = .next
      { u with outMem := Memory.writeBytes u.outMem (rasterOffset u x y) (storedBytes u.channels p),
               answer := some .ok } := by
  have hfit := (rasterOffset_inside hx hy).trans hi.fits
  rw [← storedBytes_length hi.channels p] at hfit
  rw [step_host hu]
  exact hostSet_next_iff.2 ⟨hs, .inl ⟨inBounds_iff.2 ⟨hx, hy⟩, hfit, rfl⟩⟩

end

/-- A stored pixel is read back at its address. -/
theorem pixelStored_same {m m' : List Host.Cell} {a n c : Nat} {p : Pixel} (h : Claims.PixelStored m m' a n p)
    (hc : c < n) : Memory.read m' (a + c) = some (Claims.chan p c) := by
  rw [h, if_pos (by omega), Nat.add_sub_cancel_left]

/-- A pixel that shares no byte with the stored one stands where it stood. -/
theorem PixelAt.of_disjoint {ch : Byte} {m m' : List Host.Cell} {a o : Nat} {p q : Pixel} (hq : PixelAt ch m o q)
    (hst : Claims.PixelStored m m' a ch.toNat p) (hdis : o + ch.toNat ≤ a ∨ a + ch.toNat ≤ o) : PixelAt ch m' o q := by
  obtain ⟨hbytes, halpha⟩ := hq
  refine ⟨fun c hc => ?_, halpha⟩
  rw [hst, if_neg (by omega), hbytes c hc]

/-! ### The port's statements -/

/-- Settles O42: a complete image holds the pixel, and GET reads what the image holds. -/
theorem getAnswersTheStoredPixel : Obligations.GetAnswersTheStoredPixel := by
  intro s u x y hu hs hd hx hy
  obtain ⟨p, hp⟩ := hd.exists_pixelAt hx hy
  have hget := step_getPixel hu hs hd.image hx hy hp
  obtain ⟨hbytes, halpha⟩ := hp
  refine ⟨p, hget, fun c hc => hbytes c ?_, fun h4 => hbytes 3 ?_, halpha⟩
  · obtain hch | hch := hd.image.channels <;> rw [hch]
    · exact hc
    · exact Nat.lt_succ_of_lt hc
  · rw [h4]; decide

/-- Settles O43: SET inside an image that fits is one write of the pixel's stored bytes. -/
theorem setStoresThePixel : Obligations.SetStoresThePixel := by
  intro s u x y p hu hs hi hx hy
  exact ⟨_, step_setPixel hu hs hi hx hy, rfl, storedBytes_pixelStored hi.channels _ _ p⟩

/-- Settles O44: outside the image neither access gets to OUT. -/
theorem outOfRangeAccessHasNoEffect : Obligations.OutOfRangeAccessHasNoEffect := by
  intro s u x y hs hout
  have hb := inBounds_eq_false hout
  refine ⟨fun hu => ?_, fun p hu => ?_⟩ <;> rw [step_host hu]
  · exact hostGet_next_iff.2 ⟨hs, .inr ⟨hb, rfl⟩⟩
  · exact hostSet_next_iff.2 ⟨hs, .inr ⟨hb, rfl⟩⟩

/-- Settles O45: both accesses check for DONE first. -/
theorem rasterPortIsRefusedUnlessDone : Obligations.RasterPortIsRefusedUnlessDone := by
  intro s u x y hs
  refine ⟨fun hu => ?_, fun p hu => ?_⟩ <;> rw [step_host hu]
  · exact if_neg hs
  · exact if_neg hs

/-- The state after a SET of `p` at `(x, y)` and with the turns `l` to come. -/
def afterSet (s : State) (x y : BitVec 32) (p : Pixel) (l : List Turn) : State :=
  { s with outMem := Memory.writeBytes s.outMem (rasterOffset s x y) (storedBytes s.channels p),
           answer := some .ok, agenda := l }

/-- A SET and then a GET, both inside the image, end in what the GET finds after the SET. -/
theorem run_set_get {s : State} {x y x' y' : BitVec 32} {p q : Pixel} {rest : List Turn}
    (hagenda : s.agenda = .host (.setPixel x y p) :: .host (.getPixel x' y') :: rest) (hs : s.status = .done)
    (hi : ImageInv s) (hx : x.toNat < s.width.toNat) (hy : y.toNat < s.height.toNat)
    (hx' : x'.toNat < s.width.toNat) (hy' : y'.toNat < s.height.toNat)
    (hq : PixelAt s.channels (afterSet s x y p rest).outMem (rasterOffset s x' y') q) :
    Host.Core.run core 2 s = .next { afterSet s x y p rest with answer := some (.pixel q) } := by
  obtain ⟨hch, hfits⟩ := hi
  have turnSet : TurnOf s (.host (.setPixel x y p)) { s with agenda := .host (.getPixel x' y') :: rest } :=
    .inr ⟨_, hagenda, rfl⟩
  have hset : core.step s = .next (afterSet s x y p (.host (.getPixel x' y') :: rest)) :=
    step_setPixel turnSet hs ⟨hch, hfits⟩ hx hy
  have turnGet : TurnOf (afterSet s x y p (.host (.getPixel x' y') :: rest)) (.host (.getPixel x' y'))
      (afterSet s x y p rest) := .inr ⟨rest, rfl, rfl⟩
  have hget : core.step (afterSet s x y p (.host (.getPixel x' y') :: rest)) =
      .next { afterSet s x y p rest with answer := some (.pixel q) } :=
    step_getPixel turnGet hs ⟨hch, hfits⟩ hx' hy' hq
  simp only [Host.Core.run, hset, hget]

/-- Settles O46: the GET finds, at its address, the pixel just stored, or, where that address shares no byte with the
stored pixel, what stood there before. -/
theorem getAfterSet : Obligations.GetAfterSet := by
  intro s x y x' y' p rest hs hd hx hy hx' hy' hagenda
  have hi := hd.image
  have hch := hi.channels
  have hstored := storedBytes_pixelStored hch s.outMem (rasterOffset s x y) p
  by_cases hsame : x' = x ∧ y' = y
  · obtain ⟨rfl, rfl⟩ := hsame
    have hq := pixelAt_shownPixel hch fun c hc => pixelStored_same hstored hc
    exact ⟨_, _, run_set_get hagenda hs hi hx hy hx' hy' hq, rfl, fun _ => rfl,
      fun hne => absurd hne (by simp)⟩
  · have hne : x' ≠ x ∨ y' ≠ y := not_and_or.1 hsame
    obtain ⟨q, hq⟩ := hd.exists_pixelAt hx' hy'
    have hq' := hq.of_disjoint hstored (rasterOffset_disjoint hx hx' hne)
    have turnGet : TurnOf { s with agenda := [.host (.getPixel x' y')] } (.host (.getPixel x' y'))
        { s with agenda := [] } := .inr ⟨[], rfl, rfl⟩
    have hget := step_getPixel turnGet hs ⟨hch, hi.fits⟩ hx' hy' hq
    exact ⟨_, q, run_set_get hagenda hs hi hx hy hx' hy' hq', rfl, fun h => absurd h hsame, fun _ => ⟨_, hget, rfl⟩⟩

end Sys2Proof.Machine
end

section
/-! PROOFS. Reset and boot (spec/70_reset_and_hazards.md): the values a reset leaves, and the host's turns from INWRITE to
START as a run of the machine. -/

namespace Sys2Proof.Machine

/-! ### Reset (R230) -/

/-- Settles O47: a reset turn leaves `State.resetWith` at the sizes there are; the agenda and the free-value counter stay. -/
theorem resetValues : Obligations.ResetValues := by
  refine ⟨⟨rfl, rfl, rfl, fun a => ⟨Memory.read_nil a, Memory.read_nil a⟩⟩, fun s u hu => ?_⟩
  have hstep : step s = .next { State.resetWith u.params with agenda := u.agenda, freeCtr := u.freeCtr } := step_host hu
  exact ⟨_, hstep, rfl, rfl, rfl, rfl, fun a => ⟨Memory.read_nil a, Memory.read_nil a⟩⟩

/-! ### Boot (R233) -/

/-- A run goes on from the state its first step ends in. -/
theorem run_succ_of_step {s t : State} (h : step s = .next t) (k : Nat) :
    Host.Core.run core (k + 1) s = Host.Core.run core k t := by
  have hcore : core.step s = .next t := h
  simp only [Host.Core.run, hcore]

/-- An INWRITE within IN stores its byte (R58). -/
theorem step_inWrite {s u : State} {a : Nat} {v : Byte} (hu : TurnOf s (.host (.inWrite a v)) u) (hs : u.status ≠ .busy)
    (ha : a < u.params.inCapacity) :
    step s = .next { u with inMem := Memory.write u.inMem a v, answer := none } :=
  (step_host hu).trans ((if_neg hs).trans (if_pos ha))

/-- The state after the INWRITEs of `bytes` from address `a` on, with the turns `l` to come and the last answer. -/
def afterLoad (s : State) (a : Nat) (bytes : List Byte) (l : List Turn) (answer : Option Answer) : State :=
  { s with inMem := Memory.writeBytes s.inMem a bytes, agenda := l, answer := answer }

/-- The INWRITEs of an image store its bytes one after another, with nothing but their own turns taken off the agenda. -/
theorem run_loadTurns {image : List Byte} {rest : List Turn} {a : Nat} {s : State}
    (hagenda : s.agenda = loadTurns a image ++ rest) (hs : s.status ≠ .busy)
    (hfit : a + image.length ≤ s.params.inCapacity) :
    ∃ answer, ∀ k, Host.Core.run core (image.length + k) s = Host.Core.run core k (afterLoad s a image rest answer) := by
  induction image generalizing a s with
  | nil =>
    obtain rfl : s.agenda = rest := hagenda
    exact ⟨s.answer, fun k => by rw [List.length_nil, Nat.zero_add]; rfl⟩
  | cons v image ih =>
    rw [List.length_cons] at hfit
    have ha : a < s.params.inCapacity := by omega
    have hstep : step s = .next (afterLoad s a [v] (loadTurns (a + 1) image ++ rest) none) :=
      step_inWrite (.inr ⟨_, hagenda, rfl⟩) hs ha
    obtain ⟨answer, hrun⟩ := ih (s := afterLoad s a [v] (loadTurns (a + 1) image ++ rest) none) rfl hs
      (by rw [Nat.add_right_comm]; exact hfit)
    refine ⟨answer, fun k => ?_⟩
    rw [List.length_cons, Nat.add_right_comm, run_succ_of_step hstep]
    exact hrun k

/-- Bytes written into IN where they fit are held there. -/
theorem inputHolds_of_writeBytes {s : State} {m : List Host.Cell} {a : Nat} {bytes : List Byte}
    (hm : s.inMem = Memory.writeBytes m a bytes) (hfit : a + bytes.length ≤ s.params.inCapacity) :
    Claims.InputHolds s a bytes := by
  refine ⟨hfit, fun j v hj => ?_⟩
  have hlt : j < bytes.length := (List.getElem?_eq_some_iff.1 hj).1
  rw [hm, Memory.read_writeBytes, if_pos (by omega), Nat.add_sub_cancel_left, hj]

/-- An IN_LEN write within IN and then START begin a decode of what IN holds (R31, R101). -/
theorem run_inLen_start {s : State} {len : BitVec 32} {rest : List Turn}
    (hagenda : s.agenda = .host (.writeReg 3 len) :: .host (.writeReg 2 1) :: rest) (hs : s.status ≠ .busy)
    (hlen : len.toNat ≤ s.params.inCapacity) :
    ∃ t, Host.Core.run core 2 s = .next t ∧ t.status = .busy ∧ t.phase = .header ∧ t.agenda = rest ∧ t.inLen = len ∧
      t.inMem = s.inMem ∧ t.params = s.params := by
  have hset := (hostLoadsTheInput s { s with agenda := .host (.writeReg 2 1) :: rest } hs).2 len
    (.inr ⟨_, hagenda, rfl⟩) hlen
  obtain ⟨t, hstart, hbusy, -, hphase, hframe⟩ := startBeginsADecode
    { s with agenda := .host (.writeReg 2 1) :: rest, inLen := len, answer := none } _ 1 (.inr ⟨rest, rfl, rfl⟩) rfl hs
  have hrun : Host.Core.run core 2 s = .next t := (run_succ_of_step hset 1).trans (run_succ_of_step hstart 0)
  exact ⟨t, hrun, hbusy, hphase, by rw [hframe], by rw [hframe], by rw [hframe], by rw [hframe]⟩

/-- Settles O48: the INWRITEs load the image, then the IN_LEN write and START find a state that is still not BUSY. -/
theorem bootSequenceStartsTheDecode : Obligations.BootSequenceStartsTheDecode := by
  intro s image rest hinv hs hfit hagenda
  have hcap : s.params.inCapacity < 2 ^ 32 := Nat.lt_of_le_pred (by decide) hinv.legal.2
  have hlen : (BitVec.ofNat 32 image.length).toNat = image.length := Nat.mod_eq_of_lt (hfit.trans_lt hcap)
  rw [bootAgenda, List.append_assoc] at hagenda
  obtain ⟨answer, hload⟩ := run_loadTurns hagenda hs (by rwa [Nat.zero_add])
  obtain ⟨t, hrun, hbusy, hphase, hrest, hinLen, hinMem, hparams⟩ :=
    run_inLen_start (s := afterLoad s 0 image _ answer) rfl hs (hlen.trans_le hfit)
  have hholds : Claims.InputHolds t 0 image := inputHolds_of_writeBytes hinMem (by rw [hparams, Nat.zero_add]; exact hfit)
  exact ⟨t, (hload 2).trans hrun, hbusy, hphase, hrest, by rw [hinLen, hlen], hholds, hparams⟩

end Sys2Proof.Machine
end
